-- ==== Sys2Proof/Word.lean ====
section
/-! DEFINITION. The fixed widths of the block (`00_scope.md` R15, `30_encoding.md` R64, R69). -/

namespace Sys2Proof

/-- A cell of the Address Space: unsigned, 8 bits (R15, R21). -/
abbrev Byte := BitVec 8

/-- An address, a Call Stack slot, `SP`, `PC`, `RET_ADDR` and an instruction word: unsigned, 16 bits (R15). -/
abbrev Addr := BitVec 16

/-- A length as the command word carries it: unsigned, 24 bits (R15, R64). Every check takes it to `Nat` first. -/
abbrev Len := BitVec 24

/-- A command word `CW` (R64). -/
abbrev CommandWord := BitVec 64

/-- A response word `RSP` (R69). -/
abbrev ResponseWord := BitVec 32

end Sys2Proof
end

