-- ==== Sys2Proof/Syntax.lean ====
section
/-! DEFINITION. The eight operations (`30_encoding.md` R62, R65) and the reasons a command word is reserved (R72). -/

namespace Sys2Proof

/-- One operation of the block with the operands its command word carries (R65, R66). The bytes that accompany
`WRBLK` and `LOAD` are data, not part of the command (R73): they stand in the state. -/
inductive Instr where
  /-- `RDBLK src, len` (R76). -/
  | rdblk (src : Addr) (len : Len)
  /-- `WRBLK dst, bytes`; `len` is the number of bytes that accompany it (R66, R77). -/
  | wrblk (dst : Addr) (len : Len)
  /-- `CPBLK src, dst, len` (R80). -/
  | cpblk (src : Addr) (dst : Addr) (len : Len)
  /-- `CLBLK dst, len` (R83). -/
  | clblk (dst : Addr) (len : Len)
  /-- `FETCH pc` (R84). -/
  | fetch (pc : Addr)
  /-- `PUSH address` (R102). -/
  | push (address : Addr)
  /-- `POP` (R104). -/
  | pop
  /-- `LOAD`; `unreadable` is the bit `U`, `len` the saturated image length (R67, R87). -/
  | load (unreadable : Bool) (len : Len)
deriving DecidableEq, Repr

/-- Why a command word is not well formed (R72, U6). -/
inductive DecodeError where
  /-- `OP` is `0x0` or in `0x9 .. 0xF`. -/
  | reservedOp (op : BitVec 4)
  /-- `Z` is not zero. -/
  | reservedZ
  /-- `U` is 1 on an operation other than `LOAD`. -/
  | reservedU
  /-- `LEN` is not zero and the operation does not use it. -/
  | unusedLen
  /-- `B` is not zero and the operation does not use it. -/
  | unusedB
  /-- `A` is not zero and the operation does not use it. -/
  | unusedA
  /-- `LOAD` with `U = 1` and `LEN` not zero. -/
  | unreadableWithLength
deriving DecidableEq, Repr

end Sys2Proof
end

