-- ==== Sys2Proof/WellFormed.lean ====
section
/-! DEFINITION. Which operations a requester can present (`30_encoding.md` R72). -/

namespace Sys2Proof

/-- Every operand is a bit field of its own width, so the one constraint left between operands is that `LOAD` of an
unreadable source carries the length 0 (R67, R72). -/
def Instr.wellFormed : Instr → Bool
  | .rdblk _ _ => true
  | .wrblk _ _ => true
  | .cpblk _ _ _ => true
  | .clblk _ _ => true
  | .fetch _ => true
  | .push _ => true
  | .pop => true
  | .load unreadable len => !unreadable || len == 0#24

end Sys2Proof
end

