-- ==== Sys2Proof/Decode.lean ====
section
/-! DEFINITION. The command word: its fields, the decoder (total on all 64-bit words), the encoder, and the table's
numbering of a word (`30_encoding.md` R64, R65, R66, R72, R73). -/

namespace Sys2Proof

/-! ## Operation codes (R65) -/

def Opcode.rdblk : BitVec 4 := 0x1#4
def Opcode.wrblk : BitVec 4 := 0x2#4
def Opcode.cpblk : BitVec 4 := 0x3#4
def Opcode.clblk : BitVec 4 := 0x4#4
def Opcode.fetch : BitVec 4 := 0x5#4
def Opcode.push : BitVec 4 := 0x6#4
def Opcode.pop : BitVec 4 := 0x7#4
def Opcode.load : BitVec 4 := 0x8#4

/-! ## Fields of the command word (R64) -/

/-- `CW[63:60]`. -/
def fieldOp (cw : CommandWord) : BitVec 4 := cw.extractLsb' 60 4

/-- `CW[59:57]`. -/
def fieldZ (cw : CommandWord) : BitVec 3 := cw.extractLsb' 57 3

/-- `CW[56]`. -/
def fieldU (cw : CommandWord) : Bool := cw.getLsbD 56

/-- `CW[55:32]`. -/
def fieldLen (cw : CommandWord) : Len := cw.extractLsb' 32 24

/-- `CW[31:16]`. -/
def fieldB (cw : CommandWord) : Addr := cw.extractLsb' 16 16

/-- `CW[15:0]`. -/
def fieldA (cw : CommandWord) : Addr := cw.extractLsb' 0 16

/-- A command word from its fields, `Z` being zero (R64). -/
def commandWord (op : BitVec 4) (u : Bool) (len : Len) (b a : Addr) : CommandWord :=
  (op ++ 0#3 ++ BitVec.ofBool u ++ len ++ b ++ a).cast rfl

/-! ## Decoder -/

/-- What is wrong with the fields an operation does not use: they must all be zero (R65, R72). A field the operation
does use is passed as zero. -/
def unusedError (u : Bool) (len : Len) (b a : Addr) : Option DecodeError :=
  if u = true then some .reservedU
  else if len = 0#24 then
    if b = 0#16 then
      if a = 0#16 then none else some .unusedA
    else some .unusedB
  else some .unusedLen

/-- The operation `i`, unless something is wrong with its fields. -/
def acceptUnless (error : Option DecodeError) (i : Instr) : Except DecodeError Instr :=
  match error with
  | none => .ok i
  | some why => .error why

/-- `LOAD` with `U = 1` carries `LEN = 0` (R67, R72). -/
def loadError (u : Bool) (len : Len) (b a : Addr) : Option DecodeError :=
  if u = true then
    if len = 0#24 then unusedError false 0#24 b a else some .unreadableWithLength
  else unusedError false 0#24 b a

/-- The operation that given fields stand for, or why they stand for none (R65, R72). -/
def decodeFields (op : BitVec 4) (z : BitVec 3) (u : Bool) (len : Len) (b a : Addr) : Except DecodeError Instr :=
  if z = 0#3 then
    if op = Opcode.rdblk then acceptUnless (unusedError u 0#24 b 0#16) (.rdblk a len)
    else if op = Opcode.wrblk then acceptUnless (unusedError u 0#24 b 0#16) (.wrblk a len)
    else if op = Opcode.cpblk then acceptUnless (unusedError u 0#24 0#16 0#16) (.cpblk a b len)
    else if op = Opcode.clblk then acceptUnless (unusedError u 0#24 b 0#16) (.clblk a len)
    else if op = Opcode.fetch then acceptUnless (unusedError u len b 0#16) (.fetch a)
    else if op = Opcode.push then acceptUnless (unusedError u len b 0#16) (.push a)
    else if op = Opcode.pop then acceptUnless (unusedError u len b a) .pop
    else if op = Opcode.load then acceptUnless (loadError u len b a) (.load u len)
    else .error (.reservedOp op)
  else .error .reservedZ

/-- The decoder: total on every 64-bit word (R72). An `.error` is the spec's `Invalid`. A word with more than one
defect is named after one of them. -/
def decode (cw : CommandWord) : Except DecodeError Instr :=
  decodeFields (fieldOp cw) (fieldZ cw) (fieldU cw) (fieldLen cw) (fieldB cw) (fieldA cw)

/-! ## Encoder -/

/-- The command word of an operation, from the table of R65. -/
def encode : Instr → CommandWord
  | .rdblk src len => commandWord Opcode.rdblk false len 0#16 src
  | .wrblk dst len => commandWord Opcode.wrblk false len 0#16 dst
  | .cpblk src dst len => commandWord Opcode.cpblk false len dst src
  | .clblk dst len => commandWord Opcode.clblk false len 0#16 dst
  | .fetch pc => commandWord Opcode.fetch false 0#24 0#16 pc
  | .push address => commandWord Opcode.push false 0#24 0#16 address
  | .pop => commandWord Opcode.pop false 0#24 0#16 0#16
  | .load unreadable len => commandWord Opcode.load unreadable len 0#16 0#16

/-! ## The opcode table's numbering -/

/-- The command word whose bits are `w`, numbered as `opcode_table.json` numbers them: bit 0 is the least significant
bit of the one 64-bit word (R64). Bits above `nbits` are zero. -/
def tableWord (nbits w : Nat) : CommandWord := BitVec.ofNat 64 (w % 2 ^ nbits)

/-- The operation the decoder reads from a word of the opcode table. -/
def decodeTableWord (nbits w : Nat) : Option Instr := (decode (tableWord nbits w)).toOption

end Sys2Proof
end

