-- ==== Sys2Proof/Config.lean ====
section
/-! DEFINITION. The parameters of one machine (`00_scope.md` section 4) and the default configuration. -/

namespace Sys2Proof

/-- Which processor owns the stack pointer (R17). -/
inductive Processor where
  /-- The reference processor of R100 and R101. -/
  | reference
  /-- Any other that keeps the contract of R98 and R99: it answers each pointer request as it likes within it. -/
  | other
deriving DecidableEq, Repr

/-- The constants of one machine (R10 to R14). An illegal configuration (U8) has no value of this type: the
constraints are carried as proofs. `SP_EMPTY` is a parameter here, of which R14 fixes the value `0xFFFF`, so that
statements are made in terms of the name (D4, N5; log 4). -/
structure Config where
  /-- `SIZE`, the number of cells of the Address Space (R10). -/
  size : Nat
  /-- `CAPACITY`, the number of slots of the Call Stack (R11). -/
  capacity : Nat
  /-- `ENTRY_OFFSET`, where the external image is placed (R12). -/
  entryOffset : Nat
  /-- `BOOT_IMAGE`; its length is `BOOT_LEN`, 0 when there is none (R13). -/
  bootImage : List Byte
  /-- `SP_EMPTY`, the empty sentinel (R14). -/
  spEmpty : Addr
  /-- The processor capability's pointer logic (R17, D23). -/
  processor : Processor
  two_le_size : 2 ≤ size := by decide
  size_le : size ≤ 65536 := by decide
  one_le_capacity : 1 ≤ capacity := by decide
  capacity_le : capacity ≤ 65535 := by decide
  entryOffset_lt : entryOffset < size := by decide
  bootImage_le : bootImage.length ≤ size := by decide
  capacity_le_spEmpty : capacity ≤ spEmpty.toNat := by decide
deriving DecidableEq, Repr

/-- The default configuration `G8-4K` (R16), with the reference processor (R17). -/
def Config.g84K : Config :=
  { size := 4096, capacity := 16, entryOffset := 512, bootImage := [], spEmpty := 0xFFFF#16, processor := .reference }

end Sys2Proof
end

