-- ==== Sys2Proof/Machine/State.lean ====
section
/-! DEFINITION. The state of one machine (`10_state.md` R20), the transactions presented to it, and why a step stops. -/

namespace Sys2Proof.Machine

/-- `PHASE` (R31). -/
inductive Phase where
  | init
  | run
deriving DecidableEq, Repr

/-- The `source` tag of a fault record (R32). The block raises one kind (R110, C2). -/
inductive FaultKind where
  /-- "memory access out of bounds", code `0x01` (R71). -/
  | memOob
deriving DecidableEq, Repr

/-- A Fault Record (R32). -/
structure FaultRecord where
  source : FaultKind
  faultingInstructionAddress : Addr
deriving DecidableEq, Repr

/-- One call the block made on a processor capability, with the value that went across (R7, R70). -/
inductive ProcCall where
  /-- `current_program_counter()` and its answer. -/
  | currentProgramCounter (value : Addr)
  /-- `current_stack_pointer()` and its answer. -/
  | currentStackPointer (value : Addr)
  /-- `increment_stack_pointer()` and its answer. -/
  | incrementStackPointer (overflow : Bool)
  /-- `decrement_stack_pointer()` and its answer. -/
  | decrementStackPointer (underflow : Bool)
  /-- `enter_trap(kind, faulting_address)`. -/
  | enterTrap (record : FaultRecord)
deriving DecidableEq, Repr

/-- A processor's answer to one pointer request: the bit it returns, and the pointer it leaves (R98, R99). -/
structure SpAnswer where
  bit : Bool
  sp : Addr
deriving DecidableEq, Repr

/-- One transaction as the requester presents it (R63), with the processor's inputs during it (R70). -/
structure Request where
  /-- The command word. -/
  word : CommandWord
  /-- The bytes that accompany it (R68, R73). -/
  data : List Byte
  /-- What the processor presents as `PC` (R30, U10). -/
  pc : Addr
  /-- What a processor other than the reference answers to the one pointer request a transaction can make (R17). -/
  spReply : SpAnswer
deriving DecidableEq, Repr

/-- One response: the response word and the bytes that follow it (R63, R69). -/
structure Response where
  word : ResponseWord
  bytes : List Byte
deriving DecidableEq, Repr

/-- Values at addresses, sorted by address, each address at most once. -/
abbrev Cells (β : Type) := List (Nat × β)

/-- The Address Space (R21): the cells that do not hold `0x00`, the value every cell has at reset (R22). -/
abbrev Memory := List Host.Cell

/-- The Call Stack (R23): the slots that a `PUSH` has written since reset. A slot not listed is unwritten (R24). -/
abbrev Slots := Cells Addr

/-- The state of one machine. `mem` to `trapLog` are the seven items of R20; `cfg` holds the machine's constants;
the rest are the model's own inputs and outputs of the transaction interface (R63). -/
structure State where
  /-- The machine's constants (R10 to R14). No step changes them. -/
  cfg : Config
  /-- `mem` (R21). -/
  mem : Memory
  /-- `slots` (R23). -/
  slots : Slots
  /-- `SP`, owned by the processor (R25). -/
  sp : Addr
  /-- `PC`, owned by the processor (R30). -/
  pc : Addr
  /-- `RET_ADDR` (R29). -/
  retAddr : Addr
  /-- `PHASE` (R31). -/
  phase : Phase
  /-- `trap_log`, oldest first (R33). -/
  trapLog : List FaultRecord
  /-- The bytes that accompany the transaction in progress (R68). -/
  data : List Byte
  /-- The answer, of a processor other than the reference, to a pointer request of the transaction in progress (R17). -/
  spReply : SpAnswer
  /-- The processor's own record for its contract: the pointer before each non-overflowing increment that no decrement
  has undone yet, newest first, which R99 (d) calls the earlier pointer value. Only the contract checks of a processor
  other than the reference read it. -/
  spTrail : List Addr
  /-- The capability calls made so far, oldest first (R70). The block never reads it. -/
  calls : List ProcCall
  /-- The responses returned so far, oldest first (R69). The block never reads it. -/
  responses : List Response
  /-- The transactions not yet presented, oldest first (R63). -/
  pending : List Request
deriving DecidableEq, Repr

/-- Model-level faults (R19): requests outside the source's contract. They are not hardware signals, and the run ends
there. All are SAFE: the model claims nothing of what the hardware does. -/
inductive Fault where
  /-- `FETCH` with `pc + 1 >= SIZE` (R85, U1). Raised by `execFetch`. Safe. -/
  | fetchOutOfRange
  /-- `PUSH` or `POP` where `SP` is neither `SP_EMPTY` nor a slot index, before or after the processor's answer
  (R26, R98 (b) and (d), R99 (c), R100 to R104, U2). Raised by `spInc`, `spDec` and `popRead`. Safe. -/
  | spIllegal
  /-- `PUSH` or `POP` where a processor other than the reference answers within its range and still breaks R98 (c) or
  (e), or R99 (b) or (d): no processor that R17 admits (R128 (b)). Raised by `spInc` and `spDec`. Safe. -/
  | spContractBroken
  /-- `POP` of a slot that no `PUSH` has written since reset (R24, U3). Raised by `popRead`. Safe. -/
  | slotUnwritten
deriving DecidableEq, Repr

/-- Requests the machine declines. All are SAFE: no state change and no response is claimed (R72). -/
inductive Refusal where
  /-- An instruction that has no meaning in this model. Raised by no arm of `exec`. Safe. -/
  | notModelled (mnemonic : String)
  /-- The command word is not well formed (R72, U6). Raised by `step`. Safe. -/
  | reservedWord (why : DecodeError)
  /-- The accompanying bytes are not as many as the command states (R68, U6). Raised by `whenAccepted`. Safe. -/
  | wrongDataLength
  /-- A command other than `LOAD` in the init phase (R31, U4). Raised by `whenAccepted`. Safe. -/
  | commandBeforeLoad
  /-- `LOAD` in the run phase (R31, R93, U5). Raised by `whenAccepted`. Safe. -/
  | loadWhileRunning
deriving DecidableEq, Repr

/-- Machine start of a machine with the constants `cfg` (R39, R126, R127 step 1). The spec gives `PC` no value:
DESIGN CHOICE `0x0000` (log 1). -/
def State.resetWith (cfg : Config) : State :=
  { cfg := cfg
    mem := []
    slots := []
    sp := cfg.spEmpty
    pc := 0x0000#16
    retAddr := 0x0000#16
    phase := .init
    trapLog := []
    data := []
    spReply := { bit := false, sp := 0x0000#16 }
    spTrail := []
    calls := []
    responses := []
    pending := [] }

/-- The machine right after reset, in the default configuration of R16. -/
def State.reset : State := State.resetWith Config.g84K

end Sys2Proof.Machine
end

