-- ==== Sys2Proof/Machine/Flags.lean ====
section
/-! DEFINITION. Status bits and the response word (`30_encoding.md` R69, `10_state.md` R36), and the fault port's
codes (R71). -/

namespace Sys2Proof.Machine

/-- `RSP`: the echo of `OP`, three zero bits, `FLAG`, `VALUE` (R69). -/
def rspWord (op : BitVec 4) (flag : Bool) (value : BitVec 24) : ResponseWord :=
  (op ++ 0#3 ++ BitVec.ofBool flag ++ value).cast rfl

/-- `VALUE` of a 16-bit result: zero-extended (R69). -/
def valueOfWord (word : BitVec 16) : BitVec 24 := word.setWidth 24

/-- `FAULT_KIND` (R71, R110). -/
def FaultKind.code : FaultKind → BitVec 8
  | .memOob => 0x01#8

/-- What one notification drives on the fault port: `FAULT_KIND` and `FAULT_ADDR` (R71). -/
def FaultRecord.port (r : FaultRecord) : BitVec 8 × BitVec 16 := (r.source.code, r.faultingInstructionAddress)

end Sys2Proof.Machine
end

