-- ==== Sys2Proof/Machine/Operands.lean ====
section
/-! DEFINITION. What an operation needs of its operands: the range predicate, the loader's fit test, the phase and the
number of accompanying bytes, the legality of the stack pointer and of a processor's answers about it. -/

namespace Sys2Proof.Machine

/-- `Valid(a, n)`, over the unbounded integers (`20_memory.md` R42, R43). -/
def valid (cfg : Config) (a : Addr) (n : Nat) : Bool := decide (a.toNat + n ≤ cfg.size)

/-- Both bytes of an instruction word at `pc` lie in the Address Space (R85). -/
def fetchInRange (cfg : Config) (pc : Addr) : Bool := decide (pc.toNat + 1 < cfg.size)

/-- The external image is readable and fits strictly below the top (`41_region_loader.md` R88, R91). -/
def loadFits (cfg : Config) (unreadable : Bool) (n : Nat) : Bool :=
  !unreadable && decide (cfg.entryOffset + n < cfg.size)

/-- `SpLegal(v)`, the stack-pointer validator (`10_state.md` R26). -/
def spLegal (cfg : Config) (v : Addr) : Bool := decide (v = cfg.spEmpty) || decide (v.toNat < cfg.capacity)

/-- `Depth(SP)` (R26). -/
def spDepth (cfg : Config) (v : Addr) : Nat := if v = cfg.spEmpty then 0 else v.toNat + 1

/-- An answer to `SpInc()` leaves a slot index on no overflow and a legal pointer always (R98 (b), (d)). -/
def incInRange (cfg : Config) (a : SpAnswer) : Bool :=
  if a.bit then spLegal cfg a.sp else decide (a.sp.toNat < cfg.capacity)

/-- The pointer from which the increments still standing began: the oldest recorded one, or `SP` where none stands. -/
def trailBase (sp : Addr) (trail : List Addr) : Addr := (trail.getLast?).getD sp

/-- An answer to `SpInc()` moves no pointer on overflow (R98 (e)), and, counting from the empty stack, overflows exactly
when `CAPACITY` increments stand (R98 (c); log 18). -/
def incKeepsContract (cfg : Config) (sp : Addr) (trail : List Addr) (a : SpAnswer) : Bool :=
  (!a.bit || decide (a.sp = sp)) &&
    (decide (trailBase sp trail ≠ cfg.spEmpty) || a.bit == decide (cfg.capacity ≤ trail.length))

/-- An answer to `SpDec()` underflows at the empty sentinel (R99 (b)) and undoes the newest increment that stands
(R99 (d); log 18). -/
def decKeepsContract (cfg : Config) (sp : Addr) (trail : List Addr) (a : SpAnswer) : Bool :=
  (decide (sp ≠ cfg.spEmpty) || a.bit) &&
    match trail with
    | [] => true
    | earlier :: _ => !a.bit && decide (a.sp = earlier)

/-- The phase in which an operation is in contract (R31). -/
def requiredPhase : Instr → Phase
  | .rdblk _ _ => .run
  | .wrblk _ _ => .run
  | .cpblk _ _ _ => .run
  | .clblk _ _ => .run
  | .fetch _ => .run
  | .push _ => .run
  | .pop => .run
  | .load _ _ => .init

/-- How many bytes accompany an operation: `LEN` for `WRBLK`, valid or not (R68), the image for `LOAD` when it will be
written (R67), none otherwise (R65). -/
def dataLength (cfg : Config) : Instr → Nat
  | .rdblk _ _ => 0
  | .wrblk _ len => len.toNat
  | .cpblk _ _ _ => 0
  | .clblk _ _ => 0
  | .fetch _ => 0
  | .push _ => 0
  | .pop => 0
  | .load unreadable len => if loadFits cfg unreadable len.toNat then len.toNat else 0

end Sys2Proof.Machine
end

