-- ==== Sys2Proof/Machine/Ops.lean ====
section
/-! DEFINITION. The shared operations: memory and slot accesses, the pointer requests, admission of a transaction, its
response, the Fault Signal, and presenting the next transaction. -/

namespace Sys2Proof.Machine

/-! ## Cells by address -/

/-- The value at address `a`, if one is listed. -/
def Cells.get {β : Type} : Cells β → Nat → Option β
  | [], _ => none
  | (b, v) :: rest, a => if a = b then some v else Cells.get rest a

/-- No value at address `a`. -/
def Cells.erase {β : Type} : Cells β → Nat → Cells β
  | [], _ => []
  | (b, v) :: rest, a => if a = b then Cells.erase rest a else (b, v) :: Cells.erase rest a

/-- The value `v` at address `a`, placed in address order; for a list that has none at `a`. -/
def Cells.insert {β : Type} : Cells β → Nat → β → Cells β
  | [], a, v => [(a, v)]
  | (b, w) :: rest, a, v => if a < b then (a, v) :: (b, w) :: rest else (b, w) :: Cells.insert rest a v

/-- The value at address `a` becomes `v`. -/
def Cells.put {β : Type} (m : Cells β) (a : Nat) (v : β) : Cells β := Cells.insert (Cells.erase m a) a v

/-- The addresses rise strictly, start at `lo` or above, and stay below `hi`. -/
def Cells.rising {β : Type} (hi : Nat) : Nat → Cells β → Bool
  | _, [] => true
  | lo, (a, _) :: rest => decide (lo ≤ a) && decide (a < hi) && Cells.rising hi (a + 1) rest

/-! ## The Address Space -/

/-- `mem[a]`; a cell not listed holds `0x00` (R22). -/
def Memory.read (m : Memory) (a : Nat) : Byte := (Cells.get m a).getD 0x00#8

/-- `mem[a] <- v`, keeping the canonical form: no listed cell holds `0x00`. -/
def Memory.write (m : Memory) (a : Nat) (v : Byte) : Memory :=
  if v = 0x00#8 then Cells.erase m a else Cells.put m a v

/-- `MemRead(a, n)`: the bytes at `a, a+1, ..., a+n-1` in that order (R19, R47). -/
def Memory.readBlock (m : Memory) (a : Nat) : Nat → List Byte
  | 0 => []
  | n + 1 => Memory.read m a :: Memory.readBlock m (a + 1) n

/-- `MemWrite(a, |v|, v)`: byte `i` goes to `a + i`, ascending (R19, R47). -/
def Memory.writeBlock (m : Memory) (a : Nat) : List Byte → Memory
  | [] => m
  | v :: vs => Memory.writeBlock (Memory.write m a v) (a + 1) vs

/-- The loop of `CPBLK`: ascending, each step reads the cell as it is at that step (R80, R81). -/
def Memory.copyBlock (m : Memory) (src dst : Nat) : Nat → Memory
  | 0 => m
  | n + 1 => Memory.copyBlock (Memory.write m dst (Memory.read m src)) (src + 1) (dst + 1) n

/-- The loop of `CLBLK` (R83). -/
def Memory.clearBlock (m : Memory) (a : Nat) : Nat → Memory
  | 0 => m
  | n + 1 => Memory.clearBlock (Memory.write m a 0x00#8) (a + 1) n

/-- The two bytes at `a` and `a + 1`, big-endian (R46). -/
def Memory.fetchWord (m : Memory) (a : Nat) : BitVec 16 :=
  (Memory.read m a ++ Memory.read m (a + 1)).cast rfl

/-- The canonical form of a store of `size` cells: addresses strictly rising and below `size`, no cell `0x00`. -/
def Memory.wf (size : Nat) (m : Memory) : Bool :=
  Cells.rising size 0 m && m.all (fun c => decide (c.2 ≠ 0x00#8))

/-! ## Updates of the state -/

/-- The Address Space becomes `m`. -/
def State.setMem (s : State) (m : Memory) : State := { s with mem := m }

/-- `slots[i] <- v`. -/
def State.setSlot (s : State) (i : Nat) (v : Addr) : State := { s with slots := Cells.put s.slots i v }

/-- The processor moves `SP`. -/
def State.setSp (s : State) (v : Addr) : State := { s with sp := v }

/-- The processor's record of standing increments becomes `trail`. -/
def State.setTrail (s : State) (trail : List Addr) : State := { s with spTrail := trail }

/-- `RET_ADDR <- v` (R29). -/
def State.setRetAddr (s : State) (v : Addr) : State := { s with retAddr := v }

/-- `PHASE <- p` (R31). -/
def State.setPhase (s : State) (p : Phase) : State := { s with phase := p }

/-- One more capability call (R70). -/
def State.logCall (s : State) (c : ProcCall) : State := { s with calls := s.calls ++ [c] }

/-- One more fault record in `trap_log` (R33). -/
def State.logTrap (s : State) (r : FaultRecord) : State := { s with trapLog := s.trapLog ++ [r] }

/-- The transaction ends: the accompanying bytes are consumed (R68) and one response is returned (R69). -/
def State.respond (s : State) (op : BitVec 4) (flag : Bool) (value : BitVec 24) (bytes : List Byte) : State :=
  { s with data := [], responses := s.responses ++ [{ word := rspWord op flag value, bytes := bytes }] }

/-- The requester presents a transaction; the processor presents its `PC` and its pointer logic (R63, R70). -/
def State.present (s : State) (r : Request) : State :=
  { s with data := r.data, pc := r.pc, spReply := r.spReply }

/-! ## Admission -/

/-- The refusal of an operation presented outside its phase `p` (U4, U5). -/
def phaseRefusal : Phase → Refusal
  | .run => .commandBeforeLoad
  | .init => .loadWhileRunning

/-- A transaction is performed only in its phase (R31) and with exactly the bytes it states (R68, U6). -/
def whenAccepted (i : Instr) (s : State) (body : Host.Outcome State Fault Refusal) : Host.Outcome State Fault Refusal :=
  if s.phase ≠ requiredPhase i then .refused (phaseRefusal (requiredPhase i))
  else if s.data.length ≠ dataLength s.cfg i then .refused .wrongDataLength
  else body

/-! ## The Fault Signal -/

/-- `raise MemOOB(PC)`: samples `PC`, constructs the record and hands it to the trap entry point once (R109, R115). The
operation goes on to its return (R19). The block saves nothing, so there is no return from a trap to model: the
`WRBLK` returns to its caller by `State.respond` and the write is not retried (R117). -/
def raiseMemOob (s : State) : State :=
  (((s.logCall (.currentProgramCounter s.pc)).logTrap { source := .memOob, faultingInstructionAddress := s.pc }).logCall
    (.enterTrap { source := .memOob, faultingInstructionAddress := s.pc }))

/-! ## The pointer requests -/

/-- The answer of the reference `SpInc()` from `sp` (R100). -/
def refInc (cfg : Config) (sp : Addr) : Except Fault SpAnswer :=
  if sp = cfg.spEmpty then .ok ⟨false, 0x0000#16⟩
  else if sp.toNat + 1 < cfg.capacity then .ok ⟨false, sp + 1#16⟩
  else if sp.toNat + 1 = cfg.capacity then .ok ⟨true, sp⟩
  else .error .spIllegal

/-- The answer of the reference `SpDec()` from `sp` (R101). -/
def refDec (cfg : Config) (sp : Addr) : Except Fault SpAnswer :=
  if sp = cfg.spEmpty then .ok ⟨true, sp⟩
  else if sp.toNat = 0 then .ok ⟨false, cfg.spEmpty⟩
  else if sp.toNat < cfg.capacity then .ok ⟨false, sp - 1#16⟩
  else .error .spIllegal

/-- Another processor's answer, admitted where the pointer is legal before, the answer is in its range (U2, R102) and it
keeps the contract `keeps` (R98, R99, R17). -/
def otherAnswer (cfg : Config) (sp : Addr) (inRange keeps : Bool) (a : SpAnswer) : Except Fault SpAnswer :=
  if spLegal cfg sp && inRange then
    if keeps then .ok a else .error .spContractBroken
  else .error .spIllegal

/-- The processor's answer to `SpInc()` in `s` (R17). -/
def incAnswer (s : State) : Except Fault SpAnswer :=
  match s.cfg.processor with
  | .reference => refInc s.cfg s.sp
  | .other =>
    otherAnswer s.cfg s.sp (incInRange s.cfg s.spReply) (incKeepsContract s.cfg s.sp s.spTrail s.spReply) s.spReply

/-- The processor's answer to `SpDec()` in `s` (R17). -/
def decAnswer (s : State) : Except Fault SpAnswer :=
  match s.cfg.processor with
  | .reference => refDec s.cfg s.sp
  | .other =>
    otherAnswer s.cfg s.sp (spLegal s.cfg s.spReply.sp) (decKeepsContract s.cfg s.sp s.spTrail s.spReply) s.spReply

/-- The processor has answered `SpInc()` with `a`: it moved `SP`, and one more increment stands unless it overflowed. -/
def State.incremented (s : State) (a : SpAnswer) : State :=
  ((s.setTrail (if a.bit then s.spTrail else s.sp :: s.spTrail)).setSp a.sp).logCall (.incrementStackPointer a.bit)

/-- The processor has answered `SpDec()` with `a`: it moved `SP`, and the newest increment stands no longer. -/
def State.decremented (s : State) (a : SpAnswer) : State :=
  ((s.setTrail s.spTrail.tail).setSp a.sp).logCall (.decrementStackPointer a.bit)

/-- `SpInc()`: one request, the processor moves `SP` and answers `overflow` (R98, R70). -/
def spInc (s : State) : Except Fault (Bool × State) :=
  match incAnswer s with
  | .ok a => .ok (a.bit, s.incremented a)
  | .error f => .error f

/-- `SpDec()`: one request, the processor moves `SP` and answers `underflow` (R99, R70). -/
def spDec (s : State) : Except Fault (Bool × State) :=
  match decAnswer s with
  | .ok a => .ok (a.bit, s.decremented a)
  | .error f => .error f

/-- `current_stack_pointer()`: one sample of `SP`, recorded (R70). -/
def sampleSp (s : State) : State := s.logCall (.currentStackPointer s.sp)

/-! ## The next transaction -/

/-- The command word at the head of the queue, and the state in which that transaction is presented. -/
def takeRequest (s : State) : Option (CommandWord × State) :=
  match s.pending with
  | [] => none
  | r :: rest => some (r.word, ({ s with pending := rest }).present r)

/-- The transaction of one command word as the opcode table lists it: zero bytes where bytes accompany it, the
processor's `PC` as it stands, and an answer that only a processor other than the reference would give. -/
def tableRequest (s : State) (cw : CommandWord) : Request :=
  { word := cw
    data := List.replicate (match decode cw with
      | .ok i => dataLength s.cfg i
      | .error _ => 0) 0x00#8
    pc := s.pc
    spReply := { bit := false, sp := 0x0000#16 } }

/-- The phase in which the operation of a command word is in contract (R31). -/
def phaseOfWord (s : State) (cw : CommandWord) : Phase :=
  match decode cw with
  | .ok i => requiredPhase i
  | .error _ => s.phase

end Sys2Proof.Machine
end

