-- ==== Sys2Proof/Machine/Bus.lean ====
section
/-! DEFINITION. The five bus operations (`40_bus_operations.md`). -/

namespace Sys2Proof.Machine

/-- `RDBLK src, len` (R76). -/
def execRdblk (src : Addr) (len : Len) (s : State) : Host.Outcome State Fault Refusal :=
  whenAccepted (.rdblk src len) s <|
    if valid s.cfg src len.toNat then
      .next (s.respond Opcode.rdblk true len (Memory.readBlock s.mem src.toNat len.toNat))
    else .next (s.respond Opcode.rdblk false 0#24 [])

/-- `WRBLK dst, bytes` (R77): the one operation that raises the Fault Signal (R110). -/
def execWrblk (dst : Addr) (len : Len) (s : State) : Host.Outcome State Fault Refusal :=
  whenAccepted (.wrblk dst len) s <|
    if valid s.cfg dst len.toNat then
      .next ((s.setMem (Memory.writeBlock s.mem dst.toNat s.data)).respond Opcode.wrblk false 0#24 [])
    else .next ((raiseMemOob s).respond Opcode.wrblk false 0#24 [])

/-- `CPBLK src, dst, len` (R80, R81, R82). -/
def execCpblk (src dst : Addr) (len : Len) (s : State) : Host.Outcome State Fault Refusal :=
  whenAccepted (.cpblk src dst len) s <|
    if valid s.cfg src len.toNat && valid s.cfg dst len.toNat then
      .next ((s.setMem (Memory.copyBlock s.mem src.toNat dst.toNat len.toNat)).respond Opcode.cpblk true 0#24 [])
    else .next (s.respond Opcode.cpblk false 0#24 [])

/-- `CLBLK dst, len` (R83). -/
def execClblk (dst : Addr) (len : Len) (s : State) : Host.Outcome State Fault Refusal :=
  whenAccepted (.clblk dst len) s <|
    if valid s.cfg dst len.toNat then
      .next ((s.setMem (Memory.clearBlock s.mem dst.toNat len.toNat)).respond Opcode.clblk true 0#24 [])
    else .next (s.respond Opcode.clblk false 0#24 [])

/-- `FETCH pc` (R84); out of contract where a byte of the word lies outside the Address Space (R85, U1). -/
def execFetch (pc : Addr) (s : State) : Host.Outcome State Fault Refusal :=
  whenAccepted (.fetch pc) s <|
    if fetchInRange s.cfg pc then
      .next (s.respond Opcode.fetch false (valueOfWord (Memory.fetchWord s.mem pc.toNat)) [])
    else .fault .fetchOutOfRange

end Sys2Proof.Machine
end

