-- ==== Sys2Proof/Machine/CallStack.lean ====
section
/-! DEFINITION. The two call-stack operations (`42_call_stack.md`). -/

namespace Sys2Proof.Machine

/-- `PUSH address` (R102): the increment first, then the write at the new pointer unless it overflowed. -/
def execPush (address : Addr) (s : State) : Host.Outcome State Fault Refusal :=
  whenAccepted (.push address) s <|
    match spInc s with
    | .error f => .fault f
    | .ok (true, s1) => .next (s1.respond Opcode.push true 0#24 [])
    | .ok (false, s1) =>
      .next (((sampleSp s1).setSlot s1.sp.toNat address).respond Opcode.push false 0#24 [])

/-- The first half of `POP` (R104, R105): on the pre-decrement pointer, test, and read the slot unless the stack is
empty. -/
def popRead (s : State) : Except Fault State :=
  if s.sp = s.cfg.spEmpty then .ok (sampleSp s)
  else if s.sp.toNat < s.cfg.capacity then
    match Cells.get s.slots s.sp.toNat with
    | some address => .ok ((sampleSp s).setRetAddr address)
    | none => .error .slotUnwritten
  else .error .spIllegal

/-- `POP` (R104): test and read, then the decrement, always. -/
def execPop (s : State) : Host.Outcome State Fault Refusal :=
  whenAccepted .pop s <|
    match popRead s with
    | .error f => .fault f
    | .ok s1 =>
      match spDec s1 with
      | .error f => .fault f
      | .ok (unf, s2) => .next (s2.respond Opcode.pop unf (valueOfWord s2.retAddr) [])

end Sys2Proof.Machine
end

