-- ==== Sys2Proof/Machine/Loader.lean ====
section
/-! DEFINITION. The region loader (`41_region_loader.md`). -/

namespace Sys2Proof.Machine

/-- Step 1 of `LOAD`: the boot image at the lowest addresses, unconditionally (R87, R90). -/
def loadBoot (s : State) : Memory := Memory.writeBlock s.mem 0 s.cfg.bootImage

/-- `LOAD` (R87 to R94): the boot image, then the external image, all or nothing; the init phase ends either way. -/
def execLoad (unreadable : Bool) (len : Len) (s : State) : Host.Outcome State Fault Refusal :=
  whenAccepted (.load unreadable len) s <|
    if loadFits s.cfg unreadable len.toNat then
      .next (((s.setMem (Memory.writeBlock (loadBoot s) s.cfg.entryOffset s.data)).setPhase .run).respond
        Opcode.load true len [])
    else .next (((s.setMem (loadBoot s)).setPhase .run).respond Opcode.load false 0#24 [])

end Sys2Proof.Machine
end

