-- ==== Sys2Proof/Machine/Dispatch.lean ====
section
/-! DEFINITION. One arm per operation. -/

namespace Sys2Proof.Machine

/-- One operation of the block, on the state in which its transaction is presented. -/
def exec (i : Instr) (s : State) : Host.Outcome State Fault Refusal :=
  match i with
  | .rdblk src len => Sys2Proof.Machine.execRdblk src len s
  | .wrblk dst len => Sys2Proof.Machine.execWrblk dst len s
  | .cpblk src dst len => Sys2Proof.Machine.execCpblk src dst len s
  | .clblk dst len => Sys2Proof.Machine.execClblk dst len s
  | .fetch pc => Sys2Proof.Machine.execFetch pc s
  | .push address => Sys2Proof.Machine.execPush address s
  | .pop => Sys2Proof.Machine.execPop s
  | .load unreadable len => Sys2Proof.Machine.execLoad unreadable len s

end Sys2Proof.Machine
end

