-- ==== Sys2Proof/Machine/Step.lean ====
section
/-! DEFINITION. One step: the next transaction, whole. -/

namespace Sys2Proof.Machine

/-- One step presents the oldest pending transaction and performs it (R56, R63). A reserved word is refused (R72). With
nothing pending the block does nothing, since it never initiates anything (R5), and the state stays the final state
of the run (R142). -/
def step (s : State) : Host.Outcome State Fault Refusal :=
  match takeRequest s with
  | none => .next s
  | some (cw, s1) =>
    match decode cw with
    | .error why => .refused (.reservedWord why)
    | .ok i => exec i s1

/-- `s` with the operation of one word of the opcode table as the next transaction, in the phase in which it is in
contract (log 3): for an operation of the run phase this stands for the `LOAD` of machine start having been done. -/
def State.withFetchWord (s : State) (nbits w : Nat) : State :=
  { s with
    phase := phaseOfWord s (tableWord nbits w)
    pending := tableRequest s (tableWord nbits w) :: s.pending }

end Sys2Proof.Machine
end

