-- ==== Sys2Proof/Safety.lean ====
section
/-! DEFINITION. The words the claims use: which states are good, what an operation leaves unchanged, and sequences of
operations. -/

namespace Sys2Proof.Machine

/-! ## Well-formed command words -/

/-- R72's words on the number of a command word: `OP` in `0x1 .. 0x8`, `Z = 0`, `U = 0` unless `OP = 0x8`, every
field the operation does not use zero (R65), and `LEN = 0` for `LOAD` with `U = 1`. -/
abbrev WordWellFormed (w : Nat) : Prop :=
  (1 ≤ w / 2 ^ 60 ∧ w / 2 ^ 60 ≤ 8) ∧ w / 2 ^ 57 % 8 = 0 ∧ (w / 2 ^ 56 % 2 = 0 ∨ w / 2 ^ 60 = 8) ∧
    ((w / 2 ^ 60 = 5 ∨ w / 2 ^ 60 = 6 ∨ w / 2 ^ 60 = 7) → w / 2 ^ 32 % 2 ^ 24 = 0) ∧
    (w / 2 ^ 60 ≠ 3 → w / 2 ^ 16 % 2 ^ 16 = 0) ∧
    ((w / 2 ^ 60 = 7 ∨ w / 2 ^ 60 = 8) → w % 2 ^ 16 = 0) ∧
    (w / 2 ^ 60 = 8 → w / 2 ^ 56 % 2 = 1 → w / 2 ^ 32 % 2 ^ 24 = 0)

/-! ## Good states -/

/-- The Address Space is in canonical form and holds cells of `[0, SIZE)` only (R21). -/
def State.memoryOk (s : State) : Bool := Memory.wf s.cfg.size s.mem

/-- The Call Stack is in canonical form and holds slots of `[0, CAPACITY)` only (R23). -/
def State.slotsOk (s : State) : Bool := Cells.rising s.cfg.capacity 0 s.slots

/-- `SpLegal(SP)` (R26). -/
def State.pointerOk (s : State) : Bool := spLegal s.cfg s.sp

/-- The invariant of every reachable state, whatever the processor answers. -/
def State.inv (s : State) : Bool := s.memoryOk && s.slotsOk && s.pointerOk

/-- Every slot at or below the top has been written since reset (R24). -/
abbrev State.StackFilled (s : State) : Prop :=
  ∀ i, i < spDepth s.cfg s.sp → (Cells.get s.slots i).isSome = true

/-- The processor is the reference processor (R17). -/
abbrev State.ReferenceProcessor (s : State) : Prop := s.cfg.processor = .reference

/-! ## The processor's contract -/

/-- The pointer at each depth, where the reference processor owns it (R26, R100). -/
def pointerAt (cfg : Config) : Nat → Addr
  | 0 => cfg.spEmpty
  | depth + 1 => BitVec.ofNat 16 depth

/-- The reference processor's record of standing increments at a depth. -/
def referenceTrail (cfg : Config) : Nat → List Addr
  | 0 => []
  | depth + 1 => pointerAt cfg depth :: referenceTrail cfg depth

/-- Every increment that stands moved the pointer to a slot index, from a pointer that was legal. -/
def trailChain (cfg : Config) : Addr → List Addr → Bool
  | sp, [] => spLegal cfg sp
  | sp, earlier :: rest => decide (sp.toNat < cfg.capacity) && trailChain cfg earlier rest

/-- What the record of standing increments says of the pointer: the reference processor's depth, or, for any other
processor, a chain of slot indexes, of which at most `CAPACITY` stand on the empty stack. -/
abbrev State.TrailOk (s : State) : Prop :=
  (s.cfg.processor = .reference → s.spTrail = referenceTrail s.cfg (spDepth s.cfg s.sp)) ∧
  (s.cfg.processor = .other → trailChain s.cfg s.sp s.spTrail = true ∧
    (trailBase s.sp s.spTrail = s.cfg.spEmpty → s.spTrail.length ≤ s.cfg.capacity))

/-- R98 (b) to (e) for an answer to `SpInc()` in `s`: a slot index on no overflow; from the empty stack, overflow exactly
when `CAPACITY` increments stand; a legal pointer; the pointer kept on overflow. -/
abbrev State.IncContract (s : State) (a : SpAnswer) : Prop :=
  (a.bit = false → a.sp.toNat < s.cfg.capacity) ∧
  (trailBase s.sp s.spTrail = s.cfg.spEmpty → (a.bit = true ↔ s.cfg.capacity ≤ s.spTrail.length)) ∧
  spLegal s.cfg a.sp = true ∧ (a.bit = true → a.sp = s.sp)

/-- R99 (b) to (d) for an answer to `SpDec()` in `s`: underflow at the empty sentinel; a legal pointer; the newest
increment that stands undone without underflow. -/
abbrev State.DecContract (s : State) (a : SpAnswer) : Prop :=
  (s.sp = s.cfg.spEmpty → a.bit = true) ∧ spLegal s.cfg a.sp = true ∧
  (∀ earlier rest, s.spTrail = earlier :: rest → a.bit = false ∧ a.sp = earlier)

/-- The fault record that a capability call hands over, if it is `enter_trap`. -/
def ProcCall.trapRecord? : ProcCall → Option FaultRecord
  | .enterTrap r => some r
  | .currentProgramCounter _ => none
  | .currentStackPointer _ => none
  | .incrementStackPointer _ => none
  | .decrementStackPointer _ => none

/-- `trap_log` holds exactly what went through `enter_trap`, in order (R33). -/
abbrev State.TrapLogRecordsEnterTrap (s : State) : Prop :=
  s.trapLog = s.calls.filterMap ProcCall.trapRecord?

/-! ## What stays the same -/

/-- Every cell of the Address Space reads as before. -/
abbrev SameMemory (s t : State) : Prop := ∀ a, Memory.read t.mem a = Memory.read s.mem a

/-- Every cell outside `[a, a + n)` reads as before. -/
abbrev SameMemoryOutside (s t : State) (a n : Nat) : Prop :=
  ∀ b, ¬(a ≤ b ∧ b < a + n) → Memory.read t.mem b = Memory.read s.mem b

/-- Every slot but number `i` is as before. -/
abbrev SameSlotsBut (s t : State) (i : Nat) : Prop := ∀ j, j ≠ i → Cells.get t.slots j = Cells.get s.slots j

/-- `slots`, `SP` and `RET_ADDR` are as before, and so is the processor's record of standing increments. -/
abbrev SameCallStack (s t : State) : Prop :=
  t.slots = s.slots ∧ t.sp = s.sp ∧ t.retAddr = s.retAddr ∧ t.spTrail = s.spTrail

/-- No capability was called and no Fault Signal raised. -/
abbrev NoCall (s t : State) : Prop := t.calls = s.calls ∧ t.trapLog = s.trapLog

/-- Exactly these capabilities were called, in this order. -/
abbrev Called (s t : State) (calls : List ProcCall) : Prop := t.calls = s.calls ++ calls

/-- Exactly one Fault Signal was raised, with the given address. -/
abbrev Signalled (s t : State) (address : Addr) : Prop :=
  t.trapLog = s.trapLog ++ [{ source := .memOob, faultingInstructionAddress := address }]

/-- What no operation changes: the constants, `PC`, the processor's inputs and the pending transactions. -/
abbrev SameEnvironment (s t : State) : Prop :=
  t.cfg = s.cfg ∧ t.pc = s.pc ∧ t.spReply = s.spReply ∧ t.pending = s.pending

/-- Nothing changed but, possibly, the Address Space, the accompanying bytes and the responses. -/
abbrev OnlyMemoryAndResponse (s t : State) : Prop :=
  SameCallStack s t ∧ NoCall s t ∧ SameEnvironment s t ∧ t.phase = s.phase

/-- The transaction ended with exactly one response, and its bytes are consumed. -/
abbrev Answered (s t : State) (word : ResponseWord) (bytes : List Byte) : Prop :=
  t.responses = s.responses ++ [{ word := word, bytes := bytes }] ∧ t.data = []

/-! ## Sequences -/

/-- The operations of a list, one after another, each with no accompanying bytes left over from the one before. -/
def execAll : List Instr → State → Host.Outcome State Fault Refusal
  | [], s => .next s
  | i :: rest, s =>
    match exec i s with
    | .next t => execAll rest t
    | .fault f => .fault f
    | .refused r => .refused r

/-- `PUSH` of each address of a list, one after another, each with the answer a processor other than the reference gives
to its increment. -/
def pushAll : List (Addr × SpAnswer) → State → Host.Outcome State Fault Refusal
  | [], s => .next s
  | (address, a) :: rest, s =>
    match exec (.push address) { s with spReply := a } with
    | .next t => pushAll rest t
    | .fault f => .fault f
    | .refused r => .refused r

end Sys2Proof.Machine
end

