-- ==== Sys2Proof/Certificates/Slice0/Obligations.lean ====
section
/-! DEFINITION. The statements for the provers. Every statement holds for every configuration, since the constants are
a field of the state. -/

open Sys2Proof Sys2Proof.Machine

/-! ## Encoding -/

/-- Words written out from the worked encodings of `30_encoding.md` section 7 and the decoding vectors V-DE-1 to V-DE-14
decode to the operations they stand for, or to none. -/
def Obligations.WordsOfTheSpecDecode : Prop :=
  decode 0x1000000400000200#64 = .ok (.rdblk 0x0200#16 4#24) ∧
  decode 0x2000000300000300#64 = .ok (.wrblk 0x0300#16 3#24) ∧
  decode 0x3000000403000302#64 = .ok (.cpblk 0x0302#16 0x0300#16 4#24) ∧
  decode 0x4000001000000300#64 = .ok (.clblk 0x0300#16 16#24) ∧
  decode 0x50000000000001FE#64 = .ok (.fetch 0x01FE#16) ∧
  decode 0x6000000000000202#64 = .ok (.push 0x0202#16) ∧
  decode 0x7000000000000000#64 = .ok .pop ∧
  decode 0x80000BB800000000#64 = .ok (.load false 3000#24) ∧
  decode 0x8100000000000000#64 = .ok (.load true 0#24) ∧
  decode 0x0000000000000000#64 = .error (.reservedOp 0x0#4) ∧
  decode 0x9000000000000000#64 = .error (.reservedOp 0x9#4) ∧
  decode 0x1200000400000200#64 = .error .reservedZ ∧
  decode 0x1100000400000200#64 = .error .reservedU ∧
  decode 0x1000000400010200#64 = .error .unusedB ∧
  decode 0x7000000000000001#64 = .error .unusedA ∧
  decode 0x5000000100000200#64 = .error .unusedLen ∧
  decode 0x8100000100000000#64 = .error .unreadableWithLength

/-- Decoding an encoded well-formed operation gives it back, for every operand of every operation. -/
def Obligations.DecodeOfEncode : Prop :=
  ∀ i : Instr, i.wellFormed = true → decode (encode i) = .ok i

/-- A word that decodes is the encoding of the well-formed operation it decodes to: no bit of it is dropped. -/
def Obligations.EncodeOfDecode : Prop :=
  ∀ (cw : CommandWord) (i : Instr), decode cw = .ok i → i.wellFormed = true ∧ encode i = cw

/-- R72: exactly the well-formed words decode, every other word is refused by the machine, and two well-formed words
that stand for the same request are the same word. -/
def Obligations.ReservedWordsAreRefused : Prop :=
  (∀ cw : CommandWord, WordWellFormed cw.toNat ↔ ∃ i, decode cw = .ok i) ∧
  (∀ (s : State) (r : Request) (rest : List Request), s.pending = r :: rest → ¬WordWellFormed r.word.toNat →
    ∃ why, step s = .refused (.reservedWord why)) ∧
  (∀ (cw cw' : CommandWord) (i : Instr), decode cw = .ok i → decode cw' = .ok i → cw = cw')

/-- R66: every operand is the field of the word as it stands, unsigned. -/
def Obligations.DecodedOperandsAreTheFields : Prop :=
  ∀ cw : CommandWord,
    (∀ src len, decode cw = .ok (.rdblk src len) →
      cw.toNat / 2 ^ 60 = 1 ∧ src.toNat = cw.toNat % 2 ^ 16 ∧ len.toNat = cw.toNat / 2 ^ 32 % 2 ^ 24) ∧
    (∀ dst len, decode cw = .ok (.wrblk dst len) →
      cw.toNat / 2 ^ 60 = 2 ∧ dst.toNat = cw.toNat % 2 ^ 16 ∧ len.toNat = cw.toNat / 2 ^ 32 % 2 ^ 24) ∧
    (∀ src dst len, decode cw = .ok (.cpblk src dst len) →
      cw.toNat / 2 ^ 60 = 3 ∧ src.toNat = cw.toNat % 2 ^ 16 ∧ dst.toNat = cw.toNat / 2 ^ 16 % 2 ^ 16 ∧
        len.toNat = cw.toNat / 2 ^ 32 % 2 ^ 24) ∧
    (∀ dst len, decode cw = .ok (.clblk dst len) →
      cw.toNat / 2 ^ 60 = 4 ∧ dst.toNat = cw.toNat % 2 ^ 16 ∧ len.toNat = cw.toNat / 2 ^ 32 % 2 ^ 24) ∧
    (∀ pc, decode cw = .ok (.fetch pc) → cw.toNat / 2 ^ 60 = 5 ∧ pc.toNat = cw.toNat % 2 ^ 16) ∧
    (∀ address, decode cw = .ok (.push address) → cw.toNat / 2 ^ 60 = 6 ∧ address.toNat = cw.toNat % 2 ^ 16) ∧
    (decode cw = .ok .pop → cw.toNat / 2 ^ 60 = 7) ∧
    (∀ unreadable len, decode cw = .ok (.load unreadable len) →
      cw.toNat / 2 ^ 60 = 8 ∧ unreadable.toNat = cw.toNat / 2 ^ 56 % 2 ∧ len.toNat = cw.toNat / 2 ^ 32 % 2 ^ 24)

/-- The `match` and `mask` of every row of `opcode_table.json` say which words decode to that row's operation (`LOAD` with
the one further condition its row names). -/
def Obligations.TableMasksDecideDecoding : Prop :=
  ∀ cw : CommandWord,
    ((∃ src len, decode cw = .ok (.rdblk src len)) ↔ cw &&& 0xFF000000FFFF0000#64 = 0x1000000000000000#64) ∧
    ((∃ dst len, decode cw = .ok (.wrblk dst len)) ↔ cw &&& 0xFF000000FFFF0000#64 = 0x2000000000000000#64) ∧
    ((∃ src dst len, decode cw = .ok (.cpblk src dst len)) ↔ cw &&& 0xFF00000000000000#64 = 0x3000000000000000#64) ∧
    ((∃ dst len, decode cw = .ok (.clblk dst len)) ↔ cw &&& 0xFF000000FFFF0000#64 = 0x4000000000000000#64) ∧
    ((∃ pc, decode cw = .ok (.fetch pc)) ↔ cw &&& 0xFFFFFFFFFFFF0000#64 = 0x5000000000000000#64) ∧
    ((∃ address, decode cw = .ok (.push address)) ↔ cw &&& 0xFFFFFFFFFFFF0000#64 = 0x6000000000000000#64) ∧
    (decode cw = .ok .pop ↔ cw &&& 0xFFFFFFFFFFFFFFFF#64 = 0x7000000000000000#64) ∧
    ((∃ unreadable len, decode cw = .ok (.load unreadable len)) ↔
      cw &&& 0xFE000000FFFFFFFF#64 = 0x8000000000000000#64 ∧
        (cw.toNat / 2 ^ 56 % 2 = 1 → cw.toNat / 2 ^ 32 % 2 ^ 24 = 0))

/-! ## Reset -/

/-- R22, R28, R31, R39: what machine start leaves, for every configuration. (`PC` has no reset value in the spec and is
left out; log 1.) -/
def Obligations.ResetValues : Prop :=
  (∀ cfg : Config,
    (∀ a, Memory.read (State.resetWith cfg).mem a = 0x00#8) ∧
    (∀ i, Cells.get (State.resetWith cfg).slots i = none) ∧
    (State.resetWith cfg).sp = cfg.spEmpty ∧ (State.resetWith cfg).retAddr = 0x0000#16 ∧
    (State.resetWith cfg).phase = .init ∧ (State.resetWith cfg).trapLog = []) ∧
  State.reset.sp = 0xFFFF#16 ∧ State.reset.cfg.size = 4096 ∧ State.reset.cfg.capacity = 16 ∧
    State.reset.cfg.entryOffset = 512 ∧ State.reset.cfg.bootImage = [] ∧ State.reset.cfg.spEmpty = 0xFFFF#16

/-! ## The range predicate -/

/-- R42: `Valid(a, n)` is `a + n <= SIZE` over the integers, with the consequences the rule lists. -/
def Obligations.ValidIsIntegerInclusion : Prop :=
  ∀ (cfg : Config) (a : Addr) (n : Nat),
    (valid cfg a n = true ↔ a.toNat + n ≤ cfg.size) ∧
    (valid cfg a n = true → a.toNat ≤ cfg.size ∧ n ≤ cfg.size) ∧
    (valid cfg a n = true → ∀ i, i < n → a.toNat + i < cfg.size ∧ a.toNat + i < 2 ^ 16) ∧
    (valid cfg a n = true → ∀ m, m ≤ n → valid cfg a m = true) ∧
    valid cfg 0x0000#16 cfg.size = true ∧
    (1 ≤ n → cfg.size ≤ a.toNat → valid cfg a n = false)

/-- R43: the two realisations in fixed-width arithmetic that the rule calls correct agree with `Valid` on every 16-bit
address and 24-bit length, and the two naive 16-bit ones do not, on the rule's example. -/
def Obligations.WraparoundSafeRealisations : Prop :=
  (∀ (cfg : Config) (a : Addr) (n : Len),
    (valid cfg a n.toNat = true ↔ a.setWidth 25 + n.setWidth 25 ≤ BitVec.ofNat 25 cfg.size) ∧
    (valid cfg a n.toNat = true ↔ a.toNat ≤ cfg.size ∧ n.toNat ≤ cfg.size - a.toNat)) ∧
  (valid Config.g84K 0xF000#16 0x2000 = false ∧ 0xF000#16 + 0x2000#16 ≤ 4096#16 ∧ 0x2000#16 ≤ 4096#16 - 0xF000#16)

/-- R44: a zero-length operation succeeds and changes nothing where its start addresses are at most `SIZE`; above `SIZE`
it is an invalid range like any other. -/
def Obligations.ZeroLengthOperations : Prop :=
  ∀ (s : State) (a b : Addr), s.phase = .run → s.data = [] →
    (∃ t, exec (.rdblk a 0#24) s = .next t ∧ SameMemory s t ∧ OnlyMemoryAndResponse s t ∧
      Answered s t (if a.toNat ≤ s.cfg.size then 0x11000000#32 else 0x10000000#32) []) ∧
    (∃ t, exec (.clblk a 0#24) s = .next t ∧ SameMemory s t ∧ OnlyMemoryAndResponse s t ∧
      Answered s t (if a.toNat ≤ s.cfg.size then 0x41000000#32 else 0x40000000#32) []) ∧
    (∃ t, exec (.cpblk a b 0#24) s = .next t ∧ SameMemory s t ∧ OnlyMemoryAndResponse s t ∧
      Answered s t (if a.toNat ≤ s.cfg.size ∧ b.toNat ≤ s.cfg.size then 0x31000000#32 else 0x30000000#32) []) ∧
    (∃ t, exec (.wrblk a 0#24) s = .next t ∧ SameMemory s t ∧ Answered s t 0x20000000#32 [] ∧
      (a.toNat ≤ s.cfg.size → OnlyMemoryAndResponse s t) ∧
      (s.cfg.size < a.toNat →
        Signalled s t s.pc))

/-- R45, R82: a checked operation with an invalid range changes no cell, whichever of its ranges is invalid. -/
def Obligations.FailedOperationsChangeNoCell : Prop :=
  ∀ (s : State) (src dst : Addr) (len : Len), s.phase = .run →
    (s.data = [] → s.cfg.size < src.toNat + len.toNat →
      ∃ t, exec (.rdblk src len) s = .next t ∧ t.mem = s.mem ∧ Answered s t 0x10000000#32 []) ∧
    (s.data.length = len.toNat → s.cfg.size < dst.toNat + len.toNat →
      ∃ t, exec (.wrblk dst len) s = .next t ∧ t.mem = s.mem ∧ Answered s t 0x20000000#32 []) ∧
    (s.data = [] → (s.cfg.size < src.toNat + len.toNat ∨ s.cfg.size < dst.toNat + len.toNat) →
      ∃ t, exec (.cpblk src dst len) s = .next t ∧ t.mem = s.mem ∧ Answered s t 0x30000000#32 []) ∧
    (s.data = [] → s.cfg.size < dst.toNat + len.toNat →
      ∃ t, exec (.clblk dst len) s = .next t ∧ t.mem = s.mem ∧ Answered s t 0x40000000#32 [])

/-! ## Bus operations -/

/-- R76: `RDBLK` returns the bytes of a valid range, or nothing, and changes no state. -/
def Obligations.RdblkReturnsTheBlock : Prop :=
  ∀ (src : Addr) (len : Len) (s : State), s.phase = .run → s.data = [] →
    encode (.rdblk src len) = BitVec.ofNat 64 (0x1000000000000000 + len.toNat * 2 ^ 32 + src.toNat) ∧
    ∃ t, exec (.rdblk src len) s = .next t ∧ t.mem = s.mem ∧ OnlyMemoryAndResponse s t ∧
      (src.toNat + len.toNat ≤ s.cfg.size →
        ∃ bytes : List Byte, bytes.length = len.toNat ∧
          (∀ i, i < len.toNat → bytes[i]? = some (Memory.read s.mem (src.toNat + i))) ∧
          Answered s t (BitVec.ofNat 32 (0x11000000 + len.toNat)) bytes) ∧
      (s.cfg.size < src.toNat + len.toNat → Answered s t 0x10000000#32 [])

/-- R77, R115: `WRBLK` writes the bytes of a valid range; on an invalid one it writes nothing, samples `PC` and hands one
fault record to the trap entry point. Its response is the same either way. -/
def Obligations.WrblkWritesOrSignals : Prop :=
  ∀ (dst : Addr) (len : Len) (s : State), s.phase = .run → s.data.length = len.toNat →
    encode (.wrblk dst len) = BitVec.ofNat 64 (0x2000000000000000 + len.toNat * 2 ^ 32 + dst.toNat) ∧
    ∃ t, exec (.wrblk dst len) s = .next t ∧ Answered s t 0x20000000#32 [] ∧
      SameCallStack s t ∧ SameEnvironment s t ∧ t.phase = s.phase ∧
      (dst.toNat + len.toNat ≤ s.cfg.size →
        (∀ i, i < len.toNat → s.data[i]? = some (Memory.read t.mem (dst.toNat + i))) ∧
        SameMemoryOutside s t dst.toNat len.toNat ∧ NoCall s t) ∧
      (s.cfg.size < dst.toNat + len.toNat →
        t.mem = s.mem ∧
        Called s t [.currentProgramCounter s.pc,
          .enterTrap { source := .memOob, faultingInstructionAddress := s.pc }] ∧
        Signalled s t s.pc)

/-- R78: a write of a valid range followed by a read of it returns the bytes written. -/
def Obligations.WriteThenReadReturnsTheBytes : Prop :=
  ∀ (addr : Addr) (len : Len) (s : State), s.phase = .run → s.data.length = len.toNat →
    addr.toNat + len.toNat ≤ s.cfg.size →
    ∃ t u, exec (.wrblk addr len) s = .next t ∧ exec (.rdblk addr len) t = .next u ∧
      Answered t u (BitVec.ofNat 32 (0x11000000 + len.toNat)) s.data

/-- R79: outside the store a read fails with no bytes and a write leaves every byte as it was and signals exactly
once. -/
def Obligations.OutOfBoundsReadAndWrite : Prop :=
  ∀ (addr : Addr) (len : Len) (s : State), s.phase = .run →
    (s.cfg.size < addr.toNat + len.toNat ∨ (addr.toNat ≤ s.cfg.size ∧ s.cfg.size - addr.toNat < len.toNat)) →
    (s.data = [] → ∃ t, exec (.rdblk addr len) s = .next t ∧ Answered s t 0x10000000#32 []) ∧
    (s.data.length = len.toNat → ∃ t, exec (.wrblk addr len) s = .next t ∧ SameMemory s t ∧
      t.trapLog.length = s.trapLog.length + 1)

/-- R80: `CPBLK` checks both ranges and runs the loop `mem[dst + i] <- mem[src + i]`, `i` ascending, each step on the
memory the step before left. -/
def Obligations.CpblkRunsTheForwardLoop : Prop :=
  ∀ (src dst : Addr) (len : Len) (s : State), s.phase = .run → s.data = [] →
    encode (.cpblk src dst len) =
      BitVec.ofNat 64 (0x3000000000000000 + len.toNat * 2 ^ 32 + dst.toNat * 2 ^ 16 + src.toNat) ∧
    ∃ t, exec (.cpblk src dst len) s = .next t ∧ OnlyMemoryAndResponse s t ∧
      (src.toNat + len.toNat ≤ s.cfg.size ∧ dst.toNat + len.toNat ≤ s.cfg.size →
        Answered s t 0x31000000#32 [] ∧ SameMemoryOutside s t dst.toNat len.toNat ∧
        ∃ cellAfter : Nat → Nat → Byte,
          (∀ a, cellAfter 0 a = Memory.read s.mem a) ∧ (∀ a, cellAfter len.toNat a = Memory.read t.mem a) ∧
          (∀ i, i < len.toNat → ∀ a, cellAfter (i + 1) a =
            if a = dst.toNat + i then cellAfter i (src.toNat + i) else cellAfter i a)) ∧
      (s.cfg.size < src.toNat + len.toNat ∨ s.cfg.size < dst.toNat + len.toNat →
        Answered s t 0x30000000#32 [] ∧ t.mem = s.mem)

/-- R81: without overlap or with `dst <= src` a copy is a move; with `src < dst < src + len` the first `dst - src` bytes
of the source are replicated across the destination. -/
def Obligations.CopyMovesOrReplicates : Prop :=
  ∀ (src dst : Addr) (len : Len) (s : State), s.phase = .run → s.data = [] →
    src.toNat + len.toNat ≤ s.cfg.size → dst.toNat + len.toNat ≤ s.cfg.size →
    ∃ t, exec (.cpblk src dst len) s = .next t ∧ SameMemoryOutside s t dst.toNat len.toNat ∧
      (dst.toNat ≤ src.toNat ∨ src.toNat + len.toNat ≤ dst.toNat →
        ∀ i, i < len.toNat → Memory.read t.mem (dst.toNat + i) = Memory.read s.mem (src.toNat + i)) ∧
      (src.toNat < dst.toNat ∧ dst.toNat < src.toNat + len.toNat →
        ∀ i, i < len.toNat →
          Memory.read t.mem (dst.toNat + i) = Memory.read s.mem (src.toNat + i % (dst.toNat - src.toNat)))

/-- R83: `CLBLK` zeroes every byte of a valid range and touches no byte outside it. -/
def Obligations.ClblkZeroesTheRange : Prop :=
  ∀ (dst : Addr) (len : Len) (s : State), s.phase = .run → s.data = [] →
    encode (.clblk dst len) = BitVec.ofNat 64 (0x4000000000000000 + len.toNat * 2 ^ 32 + dst.toNat) ∧
    ∃ t, exec (.clblk dst len) s = .next t ∧ OnlyMemoryAndResponse s t ∧
      (dst.toNat + len.toNat ≤ s.cfg.size →
        Answered s t 0x41000000#32 [] ∧ SameMemoryOutside s t dst.toNat len.toNat ∧
        ∀ i, i < len.toNat → Memory.read t.mem (dst.toNat + i) = 0x00#8) ∧
      (s.cfg.size < dst.toNat + len.toNat → Answered s t 0x40000000#32 [] ∧ t.mem = s.mem)

/-- R84: `FETCH` returns `256 * mem[pc] + mem[pc + 1]` and changes no state. -/
def Obligations.FetchReturnsTheBigEndianWord : Prop :=
  ∀ (pc : Addr) (s : State), s.phase = .run → s.data = [] → pc.toNat + 1 < s.cfg.size →
    encode (.fetch pc) = BitVec.ofNat 64 (0x5000000000000000 + pc.toNat) ∧
    ∃ t, exec (.fetch pc) s = .next t ∧ t.mem = s.mem ∧ OnlyMemoryAndResponse s t ∧
      Answered s t (BitVec.ofNat 32
        (0x50000000 + 256 * (Memory.read s.mem pc.toNat).toNat + (Memory.read s.mem (pc.toNat + 1)).toNat)) []

/-- R85: a `FETCH` of which a byte lies outside the store is the model-level fault `FetchOutOfRange`; no Fault Signal, no
value. -/
def Obligations.FetchOutOfRangeFaults : Prop :=
  ∀ (pc : Addr) (s : State), s.phase = .run → s.data = [] → s.cfg.size ≤ pc.toNat + 1 →
    exec (.fetch pc) s = .fault .fetchOutOfRange

/-- R46, R58: the two bytes `[h, l]` written at `a`, at any alignment, are seen by the next `FETCH a` as
`256 * h + l`. -/
def Obligations.WriteThenFetchIsBigEndian : Prop :=
  ∀ (a : Addr) (h l : Byte) (s : State), s.phase = .run → s.data = [h, l] → a.toNat + 2 ≤ s.cfg.size →
    ∃ t u, exec (.wrblk a 2#24) s = .next t ∧ exec (.fetch a) t = .next u ∧
      Answered t u (BitVec.ofNat 32 (0x50000000 + (256 * h.toNat + l.toNat))) []

/-! ## Region loader -/

/-- R87, R90, R92: `LOAD` writes the boot image, then the external image if it is readable and fits, and ends the init
phase either way; it calls no processor capability. -/
def Obligations.LoadPlacesTheImages : Prop :=
  ∀ (unreadable : Bool) (len : Len) (s : State), s.phase = .init →
    s.data.length = (if unreadable = false ∧ s.cfg.entryOffset + len.toNat < s.cfg.size then len.toNat else 0) →
    encode (.load unreadable len) =
      BitVec.ofNat 64 (0x8000000000000000 + unreadable.toNat * 2 ^ 56 + len.toNat * 2 ^ 32) ∧
    ∃ t, exec (.load unreadable len) s = .next t ∧ t.phase = .run ∧
      SameCallStack s t ∧ NoCall s t ∧ SameEnvironment s t ∧
      (unreadable = false ∧ s.cfg.entryOffset + len.toNat < s.cfg.size →
        Answered s t (BitVec.ofNat 32 (0x81000000 + len.toNat)) [] ∧
        (∀ i, i < len.toNat → s.data[i]? = some (Memory.read t.mem (s.cfg.entryOffset + i))) ∧
        (∀ a, ¬(s.cfg.entryOffset ≤ a ∧ a < s.cfg.entryOffset + len.toNat) →
          Memory.read t.mem a = (s.cfg.bootImage[a]?).getD (Memory.read s.mem a))) ∧
      (unreadable = true ∨ s.cfg.size ≤ s.cfg.entryOffset + len.toNat →
        Answered s t 0x80000000#32 [] ∧
        ∀ a, Memory.read t.mem a = (s.cfg.bootImage[a]?).getD (Memory.read s.mem a))

/-- R88: the fit test is strict. An image that would end at the top is rejected although a `WRBLK` of that range is
valid, every shorter one loads, the last cell is never part of a loaded image, and the empty image always fits and
writes nothing of its own. -/
def Obligations.LoadBoundIsStrict : Prop :=
  ∀ (len : Len) (s : State), s.phase = .init →
    (s.cfg.entryOffset + len.toNat = s.cfg.size → s.data = [] →
      (∃ t, exec (.load false len) s = .next t ∧ Answered s t 0x80000000#32 []) ∧
      valid s.cfg (BitVec.ofNat 16 s.cfg.entryOffset) len.toNat = true) ∧
    (s.cfg.entryOffset + len.toNat < s.cfg.size → s.data.length = len.toNat →
      ∃ t, exec (.load false len) s = .next t ∧ Answered s t (BitVec.ofNat 32 (0x81000000 + len.toNat)) [] ∧
        Memory.read t.mem (s.cfg.size - 1) =
          (s.cfg.bootImage[s.cfg.size - 1]?).getD (Memory.read s.mem (s.cfg.size - 1)) ∧
        (len = 0#24 → ∀ a, Memory.read t.mem a = (s.cfg.bootImage[a]?).getD (Memory.read s.mem a))) ∧
    s.cfg.entryOffset + 0 < s.cfg.size

/-- R89: after a failed load of a zero-filled store, the store holds the boot image at the lowest addresses and zero
everywhere else, and the run phase has begun. -/
def Obligations.FailedLoadLeavesTheBootImage : Prop :=
  ∀ (unreadable : Bool) (len : Len) (s : State), s.phase = .init → s.data = [] →
    (∀ a, Memory.read s.mem a = 0x00#8) →
    (unreadable = true ∨ s.cfg.size ≤ s.cfg.entryOffset + len.toNat) →
    ∃ t, exec (.load unreadable len) s = .next t ∧ t.phase = .run ∧ Answered s t 0x80000000#32 [] ∧
      (∀ i, i < s.cfg.bootImage.length → s.cfg.bootImage[i]? = some (Memory.read t.mem i)) ∧
      (∀ a, s.cfg.bootImage.length ≤ a → Memory.read t.mem a = 0x00#8)

/-! ## Phases -/

/-- R31, R93: in `INIT` only `LOAD` is performed, in `RUN` everything but `LOAD`; a completed `LOAD` leaves `RUN`, every
other operation leaves the phase alone, and no operation leaves `INIT`. -/
def Obligations.PhaseProtocol : Prop :=
  (∀ cfg : Config, (State.resetWith cfg).phase = .init) ∧
  (∀ (i : Instr) (s : State), (∀ unreadable len, i ≠ .load unreadable len) → s.phase = .init →
    exec i s = .refused .commandBeforeLoad) ∧
  (∀ (unreadable : Bool) (len : Len) (s : State), s.phase = .run →
    exec (.load unreadable len) s = .refused .loadWhileRunning) ∧
  (∀ (i : Instr) (s t : State), exec i s = .next t → t.phase = .run)

/-- U6: bytes that are not as many as the command states are refused, on every operation in its phase. (For `WRBLK` and
`LOAD` this is U6; for the operations that take no bytes it is the model's choice, log 8.) -/
def Obligations.WrongDataLengthIsRefused : Prop :=
  ∀ (s : State) (src dst : Addr) (len : Len),
    (s.phase = .run → s.data.length ≠ len.toNat → exec (.wrblk dst len) s = .refused .wrongDataLength) ∧
    (s.phase = .run → s.data ≠ [] →
      exec (.rdblk src len) s = .refused .wrongDataLength ∧ exec (.cpblk src dst len) s = .refused .wrongDataLength ∧
      exec (.clblk dst len) s = .refused .wrongDataLength ∧ exec (.fetch src) s = .refused .wrongDataLength ∧
      exec (.push src) s = .refused .wrongDataLength ∧ exec .pop s = .refused .wrongDataLength) ∧
    (s.phase = .init → s.cfg.entryOffset + len.toNat < s.cfg.size → s.data.length ≠ len.toNat →
      exec (.load false len) s = .refused .wrongDataLength) ∧
    (s.phase = .init → s.data ≠ [] → exec (.load true len) s = .refused .wrongDataLength) ∧
    (s.phase = .init → s.data ≠ [] → s.cfg.size ≤ s.cfg.entryOffset + len.toNat →
      exec (.load false len) s = .refused .wrongDataLength)

/-! ## Call stack -/

/-- R100: the reference `SpInc()`. -/
def Obligations.ReferenceSpInc : Prop :=
  ∀ s : State, s.cfg.processor = .reference →
    (s.sp = s.cfg.spEmpty → ∃ t, spInc s = .ok (false, t) ∧ t.sp = 0x0000#16) ∧
    (s.sp ≠ s.cfg.spEmpty → s.sp.toNat < s.cfg.capacity - 1 →
      ∃ t, spInc s = .ok (false, t) ∧ t.sp = s.sp + 1#16) ∧
    (s.sp.toNat = s.cfg.capacity - 1 → ∃ t, spInc s = .ok (true, t) ∧ t.sp = s.sp) ∧
    (s.sp ≠ s.cfg.spEmpty → s.cfg.capacity ≤ s.sp.toNat → spInc s = .error .spIllegal) ∧
    (s.cfg.spEmpty = 0xFFFF#16 → spLegal s.cfg s.sp = true → spDepth s.cfg s.sp < s.cfg.capacity →
      ∃ t, spInc s = .ok (false, t) ∧ t.sp = s.sp + 1#16)

/-- R101: the reference `SpDec()`. -/
def Obligations.ReferenceSpDec : Prop :=
  ∀ s : State, s.cfg.processor = .reference →
    (s.sp = s.cfg.spEmpty → ∃ t, spDec s = .ok (true, t) ∧ t.sp = s.sp) ∧
    (s.sp = 0x0000#16 → ∃ t, spDec s = .ok (false, t) ∧ t.sp = s.cfg.spEmpty) ∧
    (s.sp ≠ 0x0000#16 → s.sp.toNat < s.cfg.capacity → ∃ t, spDec s = .ok (false, t) ∧ t.sp = s.sp - 1#16) ∧
    (s.sp ≠ s.cfg.spEmpty → s.cfg.capacity ≤ s.sp.toNat → spDec s = .error .spIllegal) ∧
    (s.cfg.spEmpty = 0xFFFF#16 → spLegal s.cfg s.sp = true → 0 < spDepth s.cfg s.sp →
      ∃ t, spDec s = .ok (false, t) ∧ t.sp = s.sp - 1#16)

/-- R98, R99: the reference processor meets the contract. Its answers are in range, a decrement undoes a non-overflowing
increment, and from the stack it keeps at a depth its answers meet every clause; the count of R98 (c) is over the
increments that stand (log 18). -/
def Obligations.ReferenceMeetsTheContract : Prop :=
  ∀ s : State, s.cfg.processor = .reference → spLegal s.cfg s.sp = true →
    (∃ ovf t, spInc s = .ok (ovf, t) ∧ spLegal s.cfg t.sp = true ∧
      (ovf = false → t.sp.toNat < s.cfg.capacity ∧ ∃ u, spDec t = .ok (false, u) ∧ u.sp = s.sp) ∧
      (ovf = true → t.sp = s.sp)) ∧
    (∃ unf t, spDec s = .ok (unf, t) ∧ spLegal s.cfg t.sp = true ∧ (s.sp = s.cfg.spEmpty → unf = true)) ∧
    (s.spTrail = referenceTrail s.cfg (spDepth s.cfg s.sp) →
      ∃ up down, refInc s.cfg s.sp = .ok up ∧ refDec s.cfg s.sp = .ok down ∧ s.IncContract up ∧ s.DecContract down)

/-- R98, R99, for every processor: whenever `PUSH` or `POP` completes, the answer it acted on met every clause of the
contract. An increment that did not overflow left a slot index, one that did kept the pointer, and from the empty stack
it overflowed exactly when `CAPACITY` increments stand; a decrement at the sentinel underflowed, and one with an
increment standing undid it without underflow. The count over standing increments is the model's reading (log 18). -/
def Obligations.EveryProcessorKeepsTheContract : Prop :=
  ∀ s t : State, s.inv = true → s.TrailOk →
    (∀ address, exec (.push address) s = .next t →
      ∃ ovf : Bool, Answered s t (if ovf then 0x61000000#32 else 0x60000000#32) [] ∧ spLegal t.cfg t.sp = true ∧
        (ovf = false → t.sp.toNat < s.cfg.capacity ∧ t.spTrail = s.sp :: s.spTrail) ∧
        (ovf = true → t.sp = s.sp ∧ t.spTrail = s.spTrail) ∧
        (trailBase s.sp s.spTrail = s.cfg.spEmpty → (ovf = true ↔ s.spTrail.length = s.cfg.capacity))) ∧
    (exec .pop s = .next t →
      ∃ unf : Bool, Answered s t (BitVec.ofNat 32 (0x70000000 + unf.toNat * 2 ^ 24 + t.retAddr.toNat)) [] ∧
        spLegal t.cfg t.sp = true ∧ t.spTrail = s.spTrail.tail ∧ (s.sp = s.cfg.spEmpty → unf = true) ∧
        (∀ earlier rest, s.spTrail = earlier :: rest → unf = false ∧ t.sp = earlier))

/-- R17: the contract always leaves a processor other than the reference an answer. From every good state it can answer
so that `PUSH` completes, and so that `POP` completes where the pointer is the sentinel or names a written slot. -/
def Obligations.ContractLeavesAnAnswer : Prop :=
  ∀ s : State, s.cfg.processor = .other → s.inv = true → s.TrailOk → s.phase = .run → s.data = [] →
    (∀ address, ∃ a t, exec (.push address) { s with spReply := a } = .next t) ∧
    ((s.sp = s.cfg.spEmpty ∨ (Cells.get s.slots s.sp.toNat).isSome = true) →
      ∃ a t, exec .pop { s with spReply := a } = .next t)

/-- R95, R102. Below capacity the reference processor's `PUSH` moves `SP` up one and writes exactly the slot it names; at
capacity it changes nothing and reports overflow. With any other processor that keeps the contract of R98 the slot is
written exactly on no overflow, at the pointer the processor left. An answer that leaves no legal pointer or no slot to
write, or a pointer that is illegal to begin with, is out of contract (U2), and so is an answer that breaks another
clause of R98 (log 5, DESIGN CHOICE). That a push samples `SP` once is log 6 (DESIGN CHOICE). -/
def Obligations.PushWritesTheNewTop : Prop :=
  ∀ (address : Addr) (s : State), s.phase = .run → s.data = [] →
    encode (.push address) = BitVec.ofNat 64 (0x6000000000000000 + address.toNat) ∧
    (s.cfg.processor = .reference → spLegal s.cfg s.sp = true →
      ∃ t, exec (.push address) s = .next t ∧ t.mem = s.mem ∧ t.retAddr = s.retAddr ∧ t.trapLog = s.trapLog ∧
        SameEnvironment s t ∧ t.phase = s.phase ∧
        (spDepth s.cfg s.sp < s.cfg.capacity →
          Answered s t 0x60000000#32 [] ∧ t.sp.toNat = spDepth s.cfg s.sp ∧ t.spTrail = s.sp :: s.spTrail ∧
          Cells.get t.slots t.sp.toNat = some address ∧ SameSlotsBut s t t.sp.toNat ∧
          Called s t [.incrementStackPointer false, .currentStackPointer t.sp]) ∧
        (spDepth s.cfg s.sp = s.cfg.capacity →
          Answered s t 0x61000000#32 [] ∧ t.sp = s.sp ∧ t.spTrail = s.spTrail ∧ t.slots = s.slots ∧
          Called s t [.incrementStackPointer true])) ∧
    (∀ (bit : Bool) (sp' : Addr), s.cfg.processor = .other → s.spReply = ⟨bit, sp'⟩ → spLegal s.cfg s.sp = true →
      (bit = false → s.IncContract ⟨bit, sp'⟩ →
        ∃ t, exec (.push address) s = .next t ∧ Answered s t 0x60000000#32 [] ∧ t.sp = sp' ∧
          t.spTrail = s.sp :: s.spTrail ∧ Cells.get t.slots sp'.toNat = some address ∧ SameSlotsBut s t sp'.toNat ∧
          t.mem = s.mem ∧ t.retAddr = s.retAddr ∧ t.trapLog = s.trapLog ∧ SameEnvironment s t ∧ t.phase = s.phase ∧
          Called s t [.incrementStackPointer false, .currentStackPointer sp']) ∧
      (bit = true → s.IncContract ⟨bit, sp'⟩ →
        ∃ t, exec (.push address) s = .next t ∧ Answered s t 0x61000000#32 [] ∧ t.sp = s.sp ∧
          t.spTrail = s.spTrail ∧ t.slots = s.slots ∧ t.mem = s.mem ∧ t.retAddr = s.retAddr ∧
          t.trapLog = s.trapLog ∧ SameEnvironment s t ∧ t.phase = s.phase ∧
          Called s t [.incrementStackPointer true]) ∧
      (bit = false → s.cfg.capacity ≤ sp'.toNat → exec (.push address) s = .fault .spIllegal) ∧
      (bit = true → spLegal s.cfg sp' = false → exec (.push address) s = .fault .spIllegal) ∧
      (incInRange s.cfg ⟨bit, sp'⟩ = true → ¬s.IncContract ⟨bit, sp'⟩ →
        exec (.push address) s = .fault .spContractBroken)) ∧
    (spLegal s.cfg s.sp = false → exec (.push address) s = .fault .spIllegal)

/-- R103: from the empty stack, `CAPACITY` pushes write the slots in order and never overflow; the next one overflows
and changes no slot. -/
def Obligations.PushingToCapacityNeverOverflows : Prop :=
  ∀ (s : State) (addresses : List Addr) (extra : Addr), s.phase = .run → s.data = [] → s.cfg.processor = .reference →
    s.sp = s.cfg.spEmpty → addresses.length = s.cfg.capacity →
    ∃ t u, execAll (addresses.map .push) s = .next t ∧
      t.responses = s.responses ++ List.replicate s.cfg.capacity { word := 0x60000000#32, bytes := [] } ∧
      (∀ i, i < s.cfg.capacity → Cells.get t.slots i = addresses[i]?) ∧
      exec (.push extra) t = .next u ∧ Answered t u 0x61000000#32 [] ∧ u.slots = t.slots ∧ u.sp = t.sp

/-- R104, R105. `POP` reads the slot the pointer names, or nothing on the empty stack, then requests the decrement in
either case and propagates its answer; no slot changes. With the reference processor the pointer moves down one, or
stays on the empty stack (R106); with any other it goes where an answer that keeps the contract of R99 leaves it. A
pointer that is illegal before or after is out of contract (U2), and so is an answer that breaks another clause of R99
(log 5, DESIGN CHOICE). That a pop samples `SP` once is log 6 (DESIGN CHOICE). -/
def Obligations.PopReturnsTheTop : Prop :=
  ∀ (s : State), s.phase = .run → s.data = [] →
    encode .pop = 0x7000000000000000#64 ∧
    (s.cfg.processor = .reference →
      (∀ address, s.sp.toNat < s.cfg.capacity → Cells.get s.slots s.sp.toNat = some address →
        ∃ t, exec .pop s = .next t ∧ Answered s t (BitVec.ofNat 32 (0x70000000 + address.toNat)) [] ∧
          t.retAddr = address ∧ t.slots = s.slots ∧ t.mem = s.mem ∧ t.trapLog = s.trapLog ∧ SameEnvironment s t ∧
          t.phase = s.phase ∧ spDepth s.cfg t.sp + 1 = spDepth s.cfg s.sp ∧ spLegal s.cfg t.sp = true ∧
          t.spTrail = s.spTrail.tail ∧ Called s t [.currentStackPointer s.sp, .decrementStackPointer false]) ∧
      (s.sp = s.cfg.spEmpty →
        ∃ t, exec .pop s = .next t ∧ Answered s t (BitVec.ofNat 32 (0x71000000 + s.retAddr.toNat)) [] ∧
          t.slots = s.slots ∧ t.sp = s.sp ∧ t.retAddr = s.retAddr ∧ t.mem = s.mem ∧ t.trapLog = s.trapLog ∧
          SameEnvironment s t ∧ t.phase = s.phase ∧ t.spTrail = s.spTrail.tail ∧
          Called s t [.currentStackPointer s.sp, .decrementStackPointer true])) ∧
    (∀ (bit : Bool) (sp' : Addr), s.cfg.processor = .other → s.spReply = ⟨bit, sp'⟩ →
      (∀ address, s.DecContract ⟨bit, sp'⟩ → s.sp.toNat < s.cfg.capacity →
        Cells.get s.slots s.sp.toNat = some address →
        ∃ t, exec .pop s = .next t ∧
          Answered s t (BitVec.ofNat 32 (0x70000000 + bit.toNat * 2 ^ 24 + address.toNat)) [] ∧ t.retAddr = address ∧
          t.sp = sp' ∧ t.slots = s.slots ∧ t.mem = s.mem ∧ t.trapLog = s.trapLog ∧ SameEnvironment s t ∧
          t.phase = s.phase ∧ t.spTrail = s.spTrail.tail ∧
          Called s t [.currentStackPointer s.sp, .decrementStackPointer bit]) ∧
      (s.DecContract ⟨bit, sp'⟩ → s.sp = s.cfg.spEmpty →
        ∃ t, exec .pop s = .next t ∧ Answered s t (BitVec.ofNat 32 (0x71000000 + s.retAddr.toNat)) [] ∧
          t.retAddr = s.retAddr ∧ t.sp = sp' ∧ t.slots = s.slots ∧ t.mem = s.mem ∧ t.trapLog = s.trapLog ∧
          SameEnvironment s t ∧ t.phase = s.phase ∧ t.spTrail = s.spTrail.tail ∧
          Called s t [.currentStackPointer s.sp, .decrementStackPointer true]) ∧
      (spLegal s.cfg sp' = false →
        (s.sp = s.cfg.spEmpty ∨ (s.sp.toNat < s.cfg.capacity ∧ (Cells.get s.slots s.sp.toNat).isSome = true)) →
        exec .pop s = .fault .spIllegal) ∧
      (spLegal s.cfg sp' = true → ¬s.DecContract ⟨bit, sp'⟩ →
        (s.sp = s.cfg.spEmpty ∨ (s.sp.toNat < s.cfg.capacity ∧ (Cells.get s.slots s.sp.toNat).isSome = true)) →
        exec .pop s = .fault .spContractBroken)) ∧
    (spLegal s.cfg s.sp = false → exec .pop s = .fault .spIllegal)

/-- R24, U3: a `POP` whose pointer names a slot no `PUSH` has written is a model-level fault, never a value. -/
def Obligations.PopOfAnUnwrittenSlotFaults : Prop :=
  ∀ s : State, s.phase = .run → s.data = [] → s.sp.toNat < s.cfg.capacity →
    Cells.get s.slots s.sp.toNat = none → exec .pop s = .fault .slotUnwritten

/-- R107 (1): a push that does not overflow, followed by a pop, returns the address and restores the pointer; only the
slot pushed to differs. -/
def Obligations.PushThenPopRestores : Prop :=
  ∀ (address : Addr) (s : State), s.phase = .run → s.data = [] → s.cfg.processor = .reference →
    spLegal s.cfg s.sp = true → spDepth s.cfg s.sp < s.cfg.capacity →
    ∃ t u, exec (.push address) s = .next t ∧ exec .pop t = .next u ∧
      Answered t u (BitVec.ofNat 32 (0x70000000 + address.toNat)) [] ∧ u.sp = s.sp ∧ SameSlotsBut s u t.sp.toNat

/-- R98 (c), with a processor other than the reference: from the empty stack, pushes that complete report no overflow up
to the `CAPACITY`th and overflow after it, whatever the processor answers within the contract. (R98 (c) names the next
one; that those after it overflow too is the reading of log 18.) -/
def Obligations.AnyProcessorOverflowsAtCapacity : Prop :=
  ∀ (s t : State) (pushes : List (Addr × SpAnswer)), s.cfg.processor = .other → s.sp = s.cfg.spEmpty →
    s.spTrail = [] → pushAll pushes s = .next t →
    t.responses = s.responses ++ List.replicate (min pushes.length s.cfg.capacity) { word := 0x60000000#32, bytes := [] } ++
      List.replicate (pushes.length - s.cfg.capacity) { word := 0x61000000#32, bytes := [] }

/-- R99 (d), with a processor other than the reference: after a push that did not overflow, the one answer the contract
admits to the pop is no underflow and the earlier pointer, and with it the pop returns the address. -/
def Obligations.PopUndoesPushForAnyProcessor : Prop :=
  ∀ (address : Addr) (s t : State), s.cfg.processor = .other → exec (.push address) s = .next t →
    s.spReply.bit = false →
    (∃ u, exec .pop { t with spReply := ⟨false, s.sp⟩ } = .next u ∧
      Answered t u (BitVec.ofNat 32 (0x70000000 + address.toNat)) [] ∧ u.sp = s.sp ∧ u.spTrail = s.spTrail ∧
      SameSlotsBut s u t.sp.toNat) ∧
    (∀ down u, exec .pop { t with spReply := down } = .next u → down = ⟨false, s.sp⟩)

/-- R107 (2): up to `CAPACITY` pushes from the empty stack, then as many pops, return the addresses in reverse order;
one more pop underflows and returns the first address again. -/
def Obligations.PopsReturnPushesInReverse : Prop :=
  ∀ (s : State) (first : Addr) (more : List Addr), s.phase = .run → s.data = [] → s.cfg.processor = .reference →
    s.sp = s.cfg.spEmpty → (first :: more).length ≤ s.cfg.capacity →
    ∃ t u v, execAll ((first :: more).map .push) s = .next t ∧
      execAll (List.replicate (first :: more).length .pop) t = .next u ∧
      u.responses = t.responses ++ (first :: more).reverse.map
        (fun a => { word := BitVec.ofNat 32 (0x70000000 + a.toNat), bytes := [] }) ∧
      u.sp = s.cfg.spEmpty ∧ exec .pop u = .next v ∧
      Answered u v (BitVec.ofNat 32 (0x71000000 + first.toNat)) []

/-- R107 (3): with the reference processor the depth rises by one on a non-overflowing push, falls by one on a
non-underflowing pop, stays otherwise, and never exceeds `CAPACITY`. -/
def Obligations.DepthMovesByOne : Prop :=
  (∀ (address : Addr) (s : State), s.phase = .run → s.data = [] → s.cfg.processor = .reference →
    spLegal s.cfg s.sp = true → s.StackFilled →
    spDepth s.cfg s.sp ≤ s.cfg.capacity ∧
    (∃ t, exec (.push address) s = .next t ∧
      spDepth t.cfg t.sp = if spDepth s.cfg s.sp < s.cfg.capacity then spDepth s.cfg s.sp + 1 else s.cfg.capacity) ∧
    (∃ t, exec .pop s = .next t ∧ spDepth t.cfg t.sp = spDepth s.cfg s.sp - 1)) ∧
  (∀ (i : Instr) (s t : State), (∀ address, i ≠ .push address) → i ≠ .pop → exec i s = .next t →
    spDepth t.cfg t.sp = spDepth s.cfg s.sp)

/-- R107 (4): no call-stack operation changes `mem`, and no other operation changes `slots`, `SP` or `RET_ADDR`. -/
def Obligations.TheTwoSpacesAreSeparate : Prop :=
  ∀ (i : Instr) (s t : State), exec i s = .next t →
    (((∃ address, i = .push address) ∨ i = .pop) → t.mem = s.mem) ∧
    ((∀ address, i ≠ .push address) → i ≠ .pop → SameCallStack s t)

/-! ## The whole machine -/

/-- R110, R111: over all operations, `trap_log` grows by one record, of kind `0x01` with the processor's `PC`, exactly on
a `WRBLK` of an invalid range, and otherwise not at all. -/
def Obligations.OnlyBadWritesSignal : Prop :=
  (∀ (i : Instr) (s t : State), exec i s = .next t →
    (∀ dst len, i = .wrblk dst len → s.cfg.size < dst.toNat + len.toNat →
      Signalled s t s.pc) ∧
    ((∀ dst len, i = .wrblk dst len → dst.toNat + len.toNat ≤ s.cfg.size) → t.trapLog = s.trapLog)) ∧
  (∀ a : Addr, FaultRecord.port { source := .memOob, faultingInstructionAddress := a } = (0x01#8, a))

/-- R117: a second bad write is a second, independent notification, with the `PC` of its own moment, and neither write
is retried. -/
def Obligations.SecondBadWriteSignalsAgain : Prop :=
  ∀ (dst dst' : Addr) (len len' : Len) (pc' : Addr) (data' : List Byte) (s : State), s.phase = .run →
    s.data.length = len.toNat → data'.length = len'.toNat →
    s.cfg.size < dst.toNat + len.toNat → s.cfg.size < dst'.toNat + len'.toNat →
    ∃ t u, exec (.wrblk dst len) s = .next t ∧
      exec (.wrblk dst' len') (t.present (Request.mk (encode (.wrblk dst' len')) data' pc' t.spReply)) = .next u ∧
      u.trapLog = s.trapLog ++ [{ source := .memOob, faultingInstructionAddress := s.pc },
        { source := .memOob, faultingInstructionAddress := pc' }] ∧
      u.mem = s.mem

/-- R63, R69: every operation that completes returns exactly one response; it echoes `OP`, its bits 27:25 are zero, and
bytes follow only a `RDBLK`, as many as `VALUE` says. -/
def Obligations.OneResponsePerTransaction : Prop :=
  ∀ (i : Instr) (s t : State), exec i s = .next t →
    ∃ r : Response, t.responses = s.responses ++ [r] ∧ t.data = [] ∧
      r.word.toNat / 2 ^ 28 = (encode i).toNat / 2 ^ 60 ∧ r.word.toNat / 2 ^ 25 % 8 = 0 ∧
      ((∃ src len, i = .rdblk src len) → r.bytes.length = r.word.toNat % 2 ^ 24) ∧
      ((∀ src len, i ≠ .rdblk src len) → r.bytes = [])

/-- R63, R65: the step presents the oldest pending transaction and performs the operation its word decodes to, with that
transaction's bytes and the processor's `PC` and answer of that transaction. -/
def Obligations.StepPerformsTheDecodedCommand : Prop :=
  ∀ (s : State) (r : Request) (rest : List Request) (i : Instr), s.pending = r :: rest → decode r.word = .ok i →
    step s = exec i { s with pending := rest, data := r.data, pc := r.pc, spReply := r.spReply }

/-- The model's choice (log 3), from R5 and R142: with no transaction pending a step leaves the state as it is. -/
def Obligations.StepWithNothingPendingIsIdle : Prop :=
  ∀ s : State, s.pending = [] → step s = .next s

/-- R116 and U10: the record of a bad write carries the `PC` the processor presented with that very transaction,
whatever the state held before. -/
def Obligations.BadWriteRecordsThePresentedPc : Prop :=
  ∀ (s : State) (r : Request) (rest : List Request) (dst : Addr) (len : Len), s.phase = .run →
    s.pending = r :: rest → decode r.word = .ok (.wrblk dst len) → r.data.length = len.toNat →
    s.cfg.size < dst.toNat + len.toNat →
    ∃ t, step s = .next t ∧ t.mem = s.mem ∧ SameCallStack s t ∧ t.phase = .run ∧ t.pending = rest ∧
      Signalled s t r.pc

/-! ## Invariants -/

/-- Machine start, with any queue of transactions, meets the invariants below. -/
def Obligations.ResetMeetsTheInvariants : Prop :=
  ∀ (cfg : Config) (requests : List Request),
    ({ State.resetWith cfg with pending := requests } : State).inv = true ∧
    ({ State.resetWith cfg with pending := requests } : State).StackFilled ∧
    ({ State.resetWith cfg with pending := requests } : State).TrapLogRecordsEnterTrap ∧
    ({ State.resetWith cfg with pending := requests } : State).TrailOk

/-- R21, R23, R26: every step keeps the two stores in canonical form inside their bounds, and `SP` legal, whatever the
processor answers. -/
def Obligations.StepKeepsTheInvariant : Prop :=
  ∀ s t : State, s.inv = true → step s = .next t → t.inv = true

/-- R98, R99: every step keeps the record of standing increments in agreement with the pointer: for the reference
processor it is the one of the depth, for any other a chain of slot indexes of which at most `CAPACITY` stand on the
empty stack. -/
def Obligations.StepKeepsTheTrail : Prop :=
  ∀ s t : State, s.inv = true → s.TrailOk → step s = .next t → t.TrailOk

/-- R24: with the reference processor every step keeps every slot up to the top written. -/
def Obligations.StepKeepsTheStackFilled : Prop :=
  ∀ s t : State, s.inv = true → s.ReferenceProcessor → s.StackFilled → step s = .next t →
    t.ReferenceProcessor ∧ t.StackFilled

/-- U2, U3: with the reference processor the one model-level fault a good state can reach is a `FETCH` outside the
store. -/
def Obligations.OnlyFetchFaultsWithTheReferenceProcessor : Prop :=
  ∀ (s : State) (f : Fault), s.inv = true → s.ReferenceProcessor → s.StackFilled → step s = .fault f →
    f = .fetchOutOfRange ∧
    ∃ r rest pc, s.pending = r :: rest ∧ decode r.word = .ok (.fetch pc) ∧ s.cfg.size ≤ pc.toNat + 1

/-- R32, R33: `trap_log` stays the record of the `enter_trap` calls, and no step removes an entry from it, from the calls
or from the responses; the machine's constants never change. -/
def Obligations.StepOnlyAppendsToTheLogs : Prop :=
  ∀ s t : State, step s = .next t →
    t.cfg = s.cfg ∧ s.trapLog <+: t.trapLog ∧ s.calls <+: t.calls ∧ s.responses <+: t.responses ∧
    (s.TrapLogRecordsEnterTrap → t.TrapLogRecordsEnterTrap)
end

