-- ==== Sys2Proof/Laws/Decode.lean ====
section
/-! SUPPORT. The words as numbers: every field of a command word, what the three concatenations add up to, and every
operation's command word. -/

namespace Sys2Proof

/-- A concatenation is a sum, the upper part scaled by the lower part's width. -/
theorem toNat_append_eq {m n : Nat} (x : BitVec m) (y : BitVec n) : (x ++ y).toNat = x.toNat * 2 ^ n + y.toNat := by
  rw [BitVec.toNat_append, ← Nat.shiftLeft_add_eq_or_of_lt y.isLt, Nat.shiftLeft_eq]

theorem commandWord_toNat (op : BitVec 4) (u : Bool) (len : Len) (b a : Addr) :
    (commandWord op u len b a).toNat =
      op.toNat * 2 ^ 60 + u.toNat * 2 ^ 56 + len.toNat * 2 ^ 32 + b.toNat * 2 ^ 16 + a.toNat := by
  simp only [commandWord, BitVec.toNat_cast, toNat_append_eq, BitVec.toNat_ofBool, BitVec.toNat_ofNat]
  omega

theorem fieldOp_toNat (cw : CommandWord) : (fieldOp cw).toNat = cw.toNat / 2 ^ 60 := by
  have := cw.isLt
  simp only [fieldOp, BitVec.extractLsb'_toNat, Nat.shiftRight_eq_div_pow]
  omega

theorem fieldZ_toNat (cw : CommandWord) : (fieldZ cw).toNat = cw.toNat / 2 ^ 57 % 8 := by
  simp [fieldZ, Nat.shiftRight_eq_div_pow]

theorem fieldU_toNat (cw : CommandWord) : (fieldU cw).toNat = cw.toNat / 2 ^ 56 % 2 := by
  simp only [fieldU, BitVec.getLsbD, Nat.testBit_eq_decide_div_mod_eq]
  rcases Nat.mod_two_eq_zero_or_one (cw.toNat / 2 ^ 56) with h | h <;> rw [h] <;> rfl

theorem fieldLen_toNat (cw : CommandWord) : (fieldLen cw).toNat = cw.toNat / 2 ^ 32 % 2 ^ 24 := by
  simp [fieldLen, Nat.shiftRight_eq_div_pow]

theorem fieldB_toNat (cw : CommandWord) : (fieldB cw).toNat = cw.toNat / 2 ^ 16 % 2 ^ 16 := by
  simp [fieldB, Nat.shiftRight_eq_div_pow]

theorem fieldA_toNat (cw : CommandWord) : (fieldA cw).toNat = cw.toNat % 2 ^ 16 := by
  simp [fieldA]

theorem acceptUnless_ok {error : Option DecodeError} {i j : Instr} :
    acceptUnless error i = .ok j ↔ error = none ∧ i = j := by
  cases error <;> simp [acceptUnless]

theorem unusedError_none {u : Bool} {len : Len} {b a : Addr} :
    unusedError u len b a = none ↔ u = false ∧ len = 0#24 ∧ b = 0#16 ∧ a = 0#16 := by
  unfold unusedError
  by_cases hu : u = true <;> by_cases hl : len = 0#24 <;> by_cases hb : b = 0#16 <;> by_cases ha : a = 0#16 <;>
    simp [hu, hl, hb, ha]

theorem loadError_none {u : Bool} {len : Len} {b a : Addr} :
    loadError u len b a = none ↔ (u = true → len = 0#24) ∧ b = 0#16 ∧ a = 0#16 := by
  unfold loadError
  by_cases hu : u = true <;> by_cases hl : len = 0#24 <;> simp [hu, hl, unusedError_none]

/-- The fields of a built command word are the ones it was built from. -/
theorem fields_commandWord (op : BitVec 4) (u : Bool) (len : Len) (b a : Addr) :
    fieldOp (commandWord op u len b a) = op ∧ fieldZ (commandWord op u len b a) = 0#3 ∧
      fieldU (commandWord op u len b a) = u ∧ fieldLen (commandWord op u len b a) = len ∧
      fieldB (commandWord op u len b a) = b ∧ fieldA (commandWord op u len b a) = a := by
  have e := commandWord_toNat op u len b a
  have := op.isLt
  have := len.isLt
  have := b.isLt
  have := a.isLt
  have : u.toNat < 2 := Bool.toNat_lt u
  refine ⟨BitVec.eq_of_toNat_eq ?_, BitVec.eq_of_toNat_eq ?_, ?_, BitVec.eq_of_toNat_eq ?_, BitVec.eq_of_toNat_eq ?_,
    BitVec.eq_of_toNat_eq ?_⟩
  · rw [fieldOp_toNat]
    omega
  · rw [fieldZ_toNat, BitVec.toNat_ofNat]
    omega
  · have h := fieldU_toNat (commandWord op u len b a)
    have : (fieldU (commandWord op u len b a)).toNat = u.toNat := by omega
    revert this
    cases fieldU (commandWord op u len b a) <;> cases u <;> simp
  · rw [fieldLen_toNat]
    omega
  · rw [fieldB_toNat]
    omega
  · rw [fieldA_toNat]
    omega

/-- The command word of every operation as a sum. -/
theorem encode_toNat (i : Instr) :
    (encode i).toNat = match i with
      | .rdblk src len => 1 * 2 ^ 60 + len.toNat * 2 ^ 32 + src.toNat
      | .wrblk dst len => 2 * 2 ^ 60 + len.toNat * 2 ^ 32 + dst.toNat
      | .cpblk src dst len => 3 * 2 ^ 60 + len.toNat * 2 ^ 32 + dst.toNat * 2 ^ 16 + src.toNat
      | .clblk dst len => 4 * 2 ^ 60 + len.toNat * 2 ^ 32 + dst.toNat
      | .fetch pc => 5 * 2 ^ 60 + pc.toNat
      | .push address => 6 * 2 ^ 60 + address.toNat
      | .pop => 7 * 2 ^ 60
      | .load unreadable len => 8 * 2 ^ 60 + unreadable.toNat * 2 ^ 56 + len.toNat * 2 ^ 32 := by
  cases i <;> simp only [encode, commandWord_toNat] <;>
    simp [Opcode.rdblk, Opcode.wrblk, Opcode.cpblk, Opcode.clblk, Opcode.fetch, Opcode.push, Opcode.pop, Opcode.load]

/-- A command word is given by its number. -/
theorem encode_eq_ofNat {i : Instr} {n : Nat} (h : (encode i).toNat = n) : encode i = BitVec.ofNat 64 n := by
  rw [← h, BitVec.ofNat_toNat, BitVec.setWidth_eq]

end Sys2Proof

namespace Sys2Proof.Machine

theorem rspWord_toNat (op : BitVec 4) (flag : Bool) (value : BitVec 24) :
    (rspWord op flag value).toNat = op.toNat * 2 ^ 28 + flag.toNat * 2 ^ 24 + value.toNat := by
  simp only [rspWord, BitVec.toNat_cast, toNat_append_eq, BitVec.toNat_ofBool, BitVec.toNat_ofNat]
  omega

/-- A response word is given by its number. -/
theorem rspWord_eq_ofNat {op : BitVec 4} {flag : Bool} {value : BitVec 24} {n : Nat}
    (h : op.toNat * 2 ^ 28 + flag.toNat * 2 ^ 24 + value.toNat = n) : rspWord op flag value = BitVec.ofNat 32 n := by
  rw [← h, ← rspWord_toNat, BitVec.ofNat_toNat, BitVec.setWidth_eq]

/-- Big-endian: the byte at the lower address is the more significant half (R46). -/
theorem Memory.fetchWord_toNat (m : Memory) (a : Nat) :
    (Memory.fetchWord m a).toNat = 256 * (Memory.read m a).toNat + (Memory.read m (a + 1)).toNat := by
  simp only [Memory.fetchWord, BitVec.toNat_cast, toNat_append_eq]
  omega

theorem valueOfWord_toNat (w : BitVec 16) : (valueOfWord w).toNat = w.toNat := by
  have := w.isLt
  rw [valueOfWord, BitVec.toNat_setWidth]
  omega

end Sys2Proof.Machine
end

