-- ==== Sys2Proof/Laws/Memory.lean ====
section
/-! SUPPORT. The laws of the two stores: read after write, canonical form, and what each block operation leaves. -/

namespace Sys2Proof.Machine

/-! ## Cells -/

section
variable {β : Type}

theorem Cells.get_erase (m : Cells β) (a b : Nat) :
    Cells.get (Cells.erase m a) b = if b = a then none else Cells.get m b := by
  induction m with
  | nil => simp [Cells.erase, Cells.get]
  | cons c rest ih =>
    obtain ⟨k, v⟩ := c
    by_cases hak : a = k
    · subst hak
      by_cases hba : b = a <;> simp_all [Cells.erase, Cells.get]
    · by_cases hba : b = a <;> by_cases hbk : b = k <;> simp_all [Cells.erase, Cells.get]

theorem Cells.get_insert (m : Cells β) (a b : Nat) (v : β) (h : Cells.get m a = none) :
    Cells.get (Cells.insert m a v) b = if b = a then some v else Cells.get m b := by
  induction m with
  | nil => simp [Cells.insert, Cells.get]
  | cons c rest ih =>
    obtain ⟨k, w⟩ := c
    have hak : a ≠ k := by
      intro hk
      simp [Cells.get, hk] at h
    have hrest : Cells.get rest a = none := by simpa [Cells.get, hak] using h
    by_cases hlt : a < k
    · simp [Cells.insert, Cells.get, hlt]
    · by_cases hbk : b = k
      · have hba : b ≠ a := fun e => hak (e ▸ hbk)
        simp [Cells.insert, Cells.get, hlt, hbk, Ne.symm hak]
      · simp [Cells.insert, Cells.get, hlt, hbk, ih hrest]

/-- Read after write, at the same and at every other address. -/
@[simp] theorem Cells.get_put (m : Cells β) (a b : Nat) (v : β) :
    Cells.get (Cells.put m a v) b = if b = a then some v else Cells.get m b := by
  rw [Cells.put, Cells.get_insert _ _ _ _ (by simp [Cells.get_erase]), Cells.get_erase]
  by_cases h : b = a <;> simp [h]

theorem Cells.rising_mono {hi lo lo' : Nat} (h : lo' ≤ lo) {m : Cells β} (hm : Cells.rising hi lo m = true) :
    Cells.rising hi lo' m = true := by
  cases m with
  | nil => rfl
  | cons c rest =>
    obtain ⟨k, v⟩ := c
    simp only [Cells.rising, Bool.and_eq_true, decide_eq_true_eq] at hm ⊢
    exact ⟨⟨by omega, hm.1.2⟩, hm.2⟩

theorem Cells.rising_erase {hi lo : Nat} (a : Nat) {m : Cells β} (hm : Cells.rising hi lo m = true) :
    Cells.rising hi lo (Cells.erase m a) = true := by
  induction m generalizing lo with
  | nil => rfl
  | cons c rest ih =>
    obtain ⟨k, v⟩ := c
    simp only [Cells.rising, Bool.and_eq_true, decide_eq_true_eq] at hm
    by_cases h : a = k
    · simpa [Cells.erase, h] using Cells.rising_mono (by omega) (h ▸ ih hm.2)
    · simp [Cells.erase, h, Cells.rising, hm.1.1, hm.1.2, ih hm.2]

theorem Cells.rising_insert {hi lo a : Nat} (v : β) {m : Cells β} (hm : Cells.rising hi lo m = true)
    (hlo : lo ≤ a) (hhi : a < hi) (habs : Cells.get m a = none) : Cells.rising hi lo (Cells.insert m a v) = true := by
  induction m generalizing lo with
  | nil => simp [Cells.insert, Cells.rising, hlo, hhi]
  | cons c rest ih =>
    obtain ⟨k, w⟩ := c
    simp only [Cells.rising, Bool.and_eq_true, decide_eq_true_eq] at hm
    have hak : a ≠ k := by
      intro hk
      simp [Cells.get, hk] at habs
    have hrest : Cells.get rest a = none := by simpa [Cells.get, hak] using habs
    by_cases hlt : a < k
    · have : a + 1 ≤ k := hlt
      simp [Cells.insert, hlt, Cells.rising, hlo, hhi, hm.1.2, hm.2, this]
    · have : k + 1 ≤ a := by omega
      simp [Cells.insert, hlt, Cells.rising, hm.1.1, hm.1.2, ih hm.2 this hrest]

theorem Cells.rising_put {hi lo a : Nat} (v : β) {m : Cells β} (hm : Cells.rising hi lo m = true)
    (hlo : lo ≤ a) (hhi : a < hi) : Cells.rising hi lo (Cells.put m a v) = true :=
  Cells.rising_insert v (Cells.rising_erase a hm) hlo hhi (by simp [Cells.get_erase])

end

theorem Cells.all_erase {β : Type} {p : Nat × β → Bool} (a : Nat) {m : Cells β} (hm : m.all p = true) :
    (Cells.erase m a).all p = true := by
  induction m with
  | nil => rfl
  | cons c rest ih =>
    obtain ⟨k, v⟩ := c
    simp only [List.all_cons, Bool.and_eq_true] at hm
    by_cases h : a = k
    · subst h
      simpa [Cells.erase] using ih hm.2
    · simp [Cells.erase, h, hm.1, ih hm.2]

theorem Cells.all_insert {β : Type} {p : Nat × β → Bool} (a : Nat) (v : β) {m : Cells β} (hm : m.all p = true)
    (hv : p (a, v) = true) : (Cells.insert m a v).all p = true := by
  induction m with
  | nil => simp [Cells.insert, hv]
  | cons c rest ih =>
    obtain ⟨k, w⟩ := c
    simp only [List.all_cons, Bool.and_eq_true] at hm
    by_cases h : a < k <;> simp [Cells.insert, h, hm.1, hm.2, hv, ih hm.2]

/-! ## One cell of the Address Space -/

/-- Read after write, at the same and at every other address; for every memory, canonical or not. -/
@[simp] theorem Memory.read_write (m : Memory) (a b : Nat) (v : Byte) :
    Memory.read (Memory.write m a v) b = if b = a then v else Memory.read m b := by
  by_cases hv : v = 0x00#8
  · subst hv
    by_cases h : b = a <;> simp [Memory.write, Memory.read, Cells.get_erase, h]
  · by_cases h : b = a <;> simp [Memory.write, Memory.read, hv, h]

@[simp] theorem Memory.read_nil (a : Nat) : Memory.read [] a = 0x00#8 := rfl

theorem Memory.wf_nil (size : Nat) : Memory.wf size [] = true := rfl

/-- A write inside the store keeps the canonical form. -/
theorem Memory.wf_write {size a : Nat} (v : Byte) {m : Memory} (hm : Memory.wf size m = true) (ha : a < size) :
    Memory.wf size (Memory.write m a v) = true := by
  simp only [Memory.wf, Bool.and_eq_true] at hm ⊢
  by_cases hv : v = 0x00#8
  · simp only [Memory.write, hv, if_true]
    exact ⟨Cells.rising_erase a hm.1, Cells.all_erase a hm.2⟩
  · simp only [Memory.write, hv, if_false]
    exact ⟨Cells.rising_put v hm.1 (Nat.zero_le a) ha, Cells.all_insert a v (Cells.all_erase a hm.2) (by simp [hv])⟩

/-! ## Blocks -/

@[simp] theorem Memory.length_readBlock (m : Memory) (a n : Nat) : (Memory.readBlock m a n).length = n := by
  induction n generalizing a with
  | zero => rfl
  | succ n ih => simp [Memory.readBlock, ih]

/-- Byte `i` of a block read is the cell at `a + i`. -/
theorem Memory.getElem?_readBlock (m : Memory) (a n i : Nat) :
    (Memory.readBlock m a n)[i]? = if i < n then some (Memory.read m (a + i)) else none := by
  induction n generalizing a i with
  | zero => simp [Memory.readBlock]
  | succ n ih =>
    cases i with
    | zero => simp [Memory.readBlock]
    | succ i =>
      simp only [Memory.readBlock, List.getElem?_cons_succ, ih, Nat.add_lt_add_iff_right]
      rw [show a + 1 + i = a + (i + 1) by omega]

/-- What every cell holds after a block write. -/
theorem Memory.read_writeBlock (m : Memory) (a : Nat) (vs : List Byte) (b : Nat) :
    Memory.read (Memory.writeBlock m a vs) b =
      if h : a ≤ b ∧ b < a + vs.length then vs[b - a]'(by omega) else Memory.read m b := by
  induction vs generalizing m a with
  | nil =>
    have : ¬(a ≤ b ∧ b < a + 0) := by omega
    simp only [Memory.writeBlock, List.length_nil, this, dif_neg, not_false_eq_true]
  | cons v vs ih =>
    rw [Memory.writeBlock, ih]
    simp only [Memory.read_write, List.length_cons]
    by_cases hb : b = a
    · subst hb
      rw [dif_neg (by omega), dif_pos (by omega)]
      simp
    · by_cases hin : a + 1 ≤ b ∧ b < a + 1 + vs.length
      · have h3 : b - a = (b - (a + 1)) + 1 := by omega
        rw [dif_pos hin, dif_pos (by omega)]
        simp [h3]
      · rw [dif_neg hin, dif_neg (by omega), if_neg hb]

/-- A block write at the bottom, as an overlay. -/
theorem Memory.read_writeBlock_zero (m : Memory) (vs : List Byte) (a : Nat) :
    Memory.read (Memory.writeBlock m 0 vs) a = (vs[a]?).getD (Memory.read m a) := by
  rw [Memory.read_writeBlock]
  by_cases h : a < vs.length
  · rw [dif_pos ⟨Nat.zero_le _, by omega⟩]
    simp [h]
  · rw [dif_neg (by omega)]
    simp [h]

theorem Memory.wf_writeBlock {size a : Nat} (vs : List Byte) {m : Memory} (hm : Memory.wf size m = true)
    (ha : a + vs.length ≤ size) : Memory.wf size (Memory.writeBlock m a vs) = true := by
  induction vs generalizing m a with
  | nil => exact hm
  | cons v vs ih =>
    simp only [List.length_cons] at ha
    exact ih (Memory.wf_write v hm (by omega)) (by omega)

/-- What every cell holds after a clear. -/
theorem Memory.read_clearBlock (m : Memory) (a n b : Nat) :
    Memory.read (Memory.clearBlock m a n) b = if a ≤ b ∧ b < a + n then 0x00#8 else Memory.read m b := by
  induction n generalizing m a with
  | zero =>
    have : ¬(a ≤ b ∧ b < a + 0) := by omega
    simp only [Memory.clearBlock, this, if_false]
  | succ n ih =>
    rw [Memory.clearBlock, ih, Memory.read_write]
    split <;> split <;> first | rfl | (split <;> first | rfl | omega) | omega

theorem Memory.wf_clearBlock {size a n : Nat} {m : Memory} (hm : Memory.wf size m = true) (ha : a + n ≤ size) :
    Memory.wf size (Memory.clearBlock m a n) = true := by
  induction n generalizing m a with
  | zero => exact hm
  | succ n ih => exact ih (Memory.wf_write _ hm (by omega)) (by omega)

/-- A copy changes no cell outside its destination. -/
theorem Memory.read_copyBlock_outside (m : Memory) (src dst n b : Nat) (h : ¬(dst ≤ b ∧ b < dst + n)) :
    Memory.read (Memory.copyBlock m src dst n) b = Memory.read m b := by
  induction n generalizing m src dst with
  | zero => rfl
  | succ n ih =>
    rw [Memory.copyBlock, ih _ _ _ (by omega), Memory.read_write, if_neg (by omega)]

/-- One step of the copy loop, seen from its end. -/
theorem Memory.copyBlock_succ (m : Memory) (src dst n : Nat) :
    Memory.copyBlock m src dst (n + 1) =
      Memory.write (Memory.copyBlock m src dst n) (dst + n) (Memory.read (Memory.copyBlock m src dst n) (src + n)) := by
  induction n generalizing m src dst with
  | zero => rfl
  | succ n ih =>
    rw [Memory.copyBlock, ih, Memory.copyBlock, show dst + 1 + n = dst + (n + 1) by omega,
      show src + 1 + n = src + (n + 1) by omega]

theorem Memory.wf_copyBlock {size src dst n : Nat} {m : Memory} (hm : Memory.wf size m = true) (ha : dst + n ≤ size) :
    Memory.wf size (Memory.copyBlock m src dst n) = true := by
  induction n generalizing m src dst with
  | zero => exact hm
  | succ n ih => exact ih (Memory.wf_write _ hm (by omega)) (by omega)

end Sys2Proof.Machine
end

