-- ==== Sys2Proof/Laws/State.lean ====
section
/-! SUPPORT. One lemma per field per update of the state. -/

namespace Sys2Proof.Machine

section
variable (s : State) (m : Memory)
@[simp] theorem State.setMem_cfg : (s.setMem m).cfg = s.cfg := rfl
@[simp] theorem State.setMem_mem : (s.setMem m).mem = m := rfl
@[simp] theorem State.setMem_slots : (s.setMem m).slots = s.slots := rfl
@[simp] theorem State.setMem_sp : (s.setMem m).sp = s.sp := rfl
@[simp] theorem State.setMem_pc : (s.setMem m).pc = s.pc := rfl
@[simp] theorem State.setMem_retAddr : (s.setMem m).retAddr = s.retAddr := rfl
@[simp] theorem State.setMem_phase : (s.setMem m).phase = s.phase := rfl
@[simp] theorem State.setMem_trapLog : (s.setMem m).trapLog = s.trapLog := rfl
@[simp] theorem State.setMem_data : (s.setMem m).data = s.data := rfl
@[simp] theorem State.setMem_spReply : (s.setMem m).spReply = s.spReply := rfl
@[simp] theorem State.setMem_spTrail : (s.setMem m).spTrail = s.spTrail := rfl
@[simp] theorem State.setMem_calls : (s.setMem m).calls = s.calls := rfl
@[simp] theorem State.setMem_responses : (s.setMem m).responses = s.responses := rfl
@[simp] theorem State.setMem_pending : (s.setMem m).pending = s.pending := rfl
end

section
variable (s : State) (i : Nat) (v : Addr)
@[simp] theorem State.setSlot_cfg : (s.setSlot i v).cfg = s.cfg := rfl
@[simp] theorem State.setSlot_mem : (s.setSlot i v).mem = s.mem := rfl
@[simp] theorem State.setSlot_slots : (s.setSlot i v).slots = Cells.put s.slots i v := rfl
@[simp] theorem State.setSlot_sp : (s.setSlot i v).sp = s.sp := rfl
@[simp] theorem State.setSlot_pc : (s.setSlot i v).pc = s.pc := rfl
@[simp] theorem State.setSlot_retAddr : (s.setSlot i v).retAddr = s.retAddr := rfl
@[simp] theorem State.setSlot_phase : (s.setSlot i v).phase = s.phase := rfl
@[simp] theorem State.setSlot_trapLog : (s.setSlot i v).trapLog = s.trapLog := rfl
@[simp] theorem State.setSlot_data : (s.setSlot i v).data = s.data := rfl
@[simp] theorem State.setSlot_spReply : (s.setSlot i v).spReply = s.spReply := rfl
@[simp] theorem State.setSlot_spTrail : (s.setSlot i v).spTrail = s.spTrail := rfl
@[simp] theorem State.setSlot_calls : (s.setSlot i v).calls = s.calls := rfl
@[simp] theorem State.setSlot_responses : (s.setSlot i v).responses = s.responses := rfl
@[simp] theorem State.setSlot_pending : (s.setSlot i v).pending = s.pending := rfl
end

section
variable (s : State) (v : Addr)
@[simp] theorem State.setSp_cfg : (s.setSp v).cfg = s.cfg := rfl
@[simp] theorem State.setSp_mem : (s.setSp v).mem = s.mem := rfl
@[simp] theorem State.setSp_slots : (s.setSp v).slots = s.slots := rfl
@[simp] theorem State.setSp_sp : (s.setSp v).sp = v := rfl
@[simp] theorem State.setSp_pc : (s.setSp v).pc = s.pc := rfl
@[simp] theorem State.setSp_retAddr : (s.setSp v).retAddr = s.retAddr := rfl
@[simp] theorem State.setSp_phase : (s.setSp v).phase = s.phase := rfl
@[simp] theorem State.setSp_trapLog : (s.setSp v).trapLog = s.trapLog := rfl
@[simp] theorem State.setSp_data : (s.setSp v).data = s.data := rfl
@[simp] theorem State.setSp_spReply : (s.setSp v).spReply = s.spReply := rfl
@[simp] theorem State.setSp_spTrail : (s.setSp v).spTrail = s.spTrail := rfl
@[simp] theorem State.setSp_calls : (s.setSp v).calls = s.calls := rfl
@[simp] theorem State.setSp_responses : (s.setSp v).responses = s.responses := rfl
@[simp] theorem State.setSp_pending : (s.setSp v).pending = s.pending := rfl
end

section
variable (s : State) (trail : List Addr)
@[simp] theorem State.setTrail_cfg : (s.setTrail trail).cfg = s.cfg := rfl
@[simp] theorem State.setTrail_mem : (s.setTrail trail).mem = s.mem := rfl
@[simp] theorem State.setTrail_slots : (s.setTrail trail).slots = s.slots := rfl
@[simp] theorem State.setTrail_sp : (s.setTrail trail).sp = s.sp := rfl
@[simp] theorem State.setTrail_pc : (s.setTrail trail).pc = s.pc := rfl
@[simp] theorem State.setTrail_retAddr : (s.setTrail trail).retAddr = s.retAddr := rfl
@[simp] theorem State.setTrail_phase : (s.setTrail trail).phase = s.phase := rfl
@[simp] theorem State.setTrail_trapLog : (s.setTrail trail).trapLog = s.trapLog := rfl
@[simp] theorem State.setTrail_data : (s.setTrail trail).data = s.data := rfl
@[simp] theorem State.setTrail_spReply : (s.setTrail trail).spReply = s.spReply := rfl
@[simp] theorem State.setTrail_spTrail : (s.setTrail trail).spTrail = trail := rfl
@[simp] theorem State.setTrail_calls : (s.setTrail trail).calls = s.calls := rfl
@[simp] theorem State.setTrail_responses : (s.setTrail trail).responses = s.responses := rfl
@[simp] theorem State.setTrail_pending : (s.setTrail trail).pending = s.pending := rfl
end

section
variable (s : State) (a : SpAnswer)
@[simp] theorem State.incremented_cfg : (s.incremented a).cfg = s.cfg := rfl
@[simp] theorem State.incremented_mem : (s.incremented a).mem = s.mem := rfl
@[simp] theorem State.incremented_slots : (s.incremented a).slots = s.slots := rfl
@[simp] theorem State.incremented_sp : (s.incremented a).sp = a.sp := rfl
@[simp] theorem State.incremented_pc : (s.incremented a).pc = s.pc := rfl
@[simp] theorem State.incremented_retAddr : (s.incremented a).retAddr = s.retAddr := rfl
@[simp] theorem State.incremented_phase : (s.incremented a).phase = s.phase := rfl
@[simp] theorem State.incremented_trapLog : (s.incremented a).trapLog = s.trapLog := rfl
@[simp] theorem State.incremented_data : (s.incremented a).data = s.data := rfl
@[simp] theorem State.incremented_spReply : (s.incremented a).spReply = s.spReply := rfl
@[simp] theorem State.incremented_spTrail : (s.incremented a).spTrail = (if a.bit then s.spTrail else s.sp :: s.spTrail) := rfl
@[simp] theorem State.incremented_calls : (s.incremented a).calls = s.calls ++ [ProcCall.incrementStackPointer a.bit] := rfl
@[simp] theorem State.incremented_responses : (s.incremented a).responses = s.responses := rfl
@[simp] theorem State.incremented_pending : (s.incremented a).pending = s.pending := rfl
end

section
variable (s : State) (a : SpAnswer)
@[simp] theorem State.decremented_cfg : (s.decremented a).cfg = s.cfg := rfl
@[simp] theorem State.decremented_mem : (s.decremented a).mem = s.mem := rfl
@[simp] theorem State.decremented_slots : (s.decremented a).slots = s.slots := rfl
@[simp] theorem State.decremented_sp : (s.decremented a).sp = a.sp := rfl
@[simp] theorem State.decremented_pc : (s.decremented a).pc = s.pc := rfl
@[simp] theorem State.decremented_retAddr : (s.decremented a).retAddr = s.retAddr := rfl
@[simp] theorem State.decremented_phase : (s.decremented a).phase = s.phase := rfl
@[simp] theorem State.decremented_trapLog : (s.decremented a).trapLog = s.trapLog := rfl
@[simp] theorem State.decremented_data : (s.decremented a).data = s.data := rfl
@[simp] theorem State.decremented_spReply : (s.decremented a).spReply = s.spReply := rfl
@[simp] theorem State.decremented_spTrail : (s.decremented a).spTrail = s.spTrail.tail := rfl
@[simp] theorem State.decremented_calls : (s.decremented a).calls = s.calls ++ [ProcCall.decrementStackPointer a.bit] := rfl
@[simp] theorem State.decremented_responses : (s.decremented a).responses = s.responses := rfl
@[simp] theorem State.decremented_pending : (s.decremented a).pending = s.pending := rfl
end

section
variable (s : State) (v : Addr)
@[simp] theorem State.setRetAddr_cfg : (s.setRetAddr v).cfg = s.cfg := rfl
@[simp] theorem State.setRetAddr_mem : (s.setRetAddr v).mem = s.mem := rfl
@[simp] theorem State.setRetAddr_slots : (s.setRetAddr v).slots = s.slots := rfl
@[simp] theorem State.setRetAddr_sp : (s.setRetAddr v).sp = s.sp := rfl
@[simp] theorem State.setRetAddr_pc : (s.setRetAddr v).pc = s.pc := rfl
@[simp] theorem State.setRetAddr_retAddr : (s.setRetAddr v).retAddr = v := rfl
@[simp] theorem State.setRetAddr_phase : (s.setRetAddr v).phase = s.phase := rfl
@[simp] theorem State.setRetAddr_trapLog : (s.setRetAddr v).trapLog = s.trapLog := rfl
@[simp] theorem State.setRetAddr_data : (s.setRetAddr v).data = s.data := rfl
@[simp] theorem State.setRetAddr_spReply : (s.setRetAddr v).spReply = s.spReply := rfl
@[simp] theorem State.setRetAddr_spTrail : (s.setRetAddr v).spTrail = s.spTrail := rfl
@[simp] theorem State.setRetAddr_calls : (s.setRetAddr v).calls = s.calls := rfl
@[simp] theorem State.setRetAddr_responses : (s.setRetAddr v).responses = s.responses := rfl
@[simp] theorem State.setRetAddr_pending : (s.setRetAddr v).pending = s.pending := rfl
end

section
variable (s : State) (p : Phase)
@[simp] theorem State.setPhase_cfg : (s.setPhase p).cfg = s.cfg := rfl
@[simp] theorem State.setPhase_mem : (s.setPhase p).mem = s.mem := rfl
@[simp] theorem State.setPhase_slots : (s.setPhase p).slots = s.slots := rfl
@[simp] theorem State.setPhase_sp : (s.setPhase p).sp = s.sp := rfl
@[simp] theorem State.setPhase_pc : (s.setPhase p).pc = s.pc := rfl
@[simp] theorem State.setPhase_retAddr : (s.setPhase p).retAddr = s.retAddr := rfl
@[simp] theorem State.setPhase_phase : (s.setPhase p).phase = p := rfl
@[simp] theorem State.setPhase_trapLog : (s.setPhase p).trapLog = s.trapLog := rfl
@[simp] theorem State.setPhase_data : (s.setPhase p).data = s.data := rfl
@[simp] theorem State.setPhase_spReply : (s.setPhase p).spReply = s.spReply := rfl
@[simp] theorem State.setPhase_spTrail : (s.setPhase p).spTrail = s.spTrail := rfl
@[simp] theorem State.setPhase_calls : (s.setPhase p).calls = s.calls := rfl
@[simp] theorem State.setPhase_responses : (s.setPhase p).responses = s.responses := rfl
@[simp] theorem State.setPhase_pending : (s.setPhase p).pending = s.pending := rfl
end

section
variable (s : State) (c : ProcCall)
@[simp] theorem State.logCall_cfg : (s.logCall c).cfg = s.cfg := rfl
@[simp] theorem State.logCall_mem : (s.logCall c).mem = s.mem := rfl
@[simp] theorem State.logCall_slots : (s.logCall c).slots = s.slots := rfl
@[simp] theorem State.logCall_sp : (s.logCall c).sp = s.sp := rfl
@[simp] theorem State.logCall_pc : (s.logCall c).pc = s.pc := rfl
@[simp] theorem State.logCall_retAddr : (s.logCall c).retAddr = s.retAddr := rfl
@[simp] theorem State.logCall_phase : (s.logCall c).phase = s.phase := rfl
@[simp] theorem State.logCall_trapLog : (s.logCall c).trapLog = s.trapLog := rfl
@[simp] theorem State.logCall_data : (s.logCall c).data = s.data := rfl
@[simp] theorem State.logCall_spReply : (s.logCall c).spReply = s.spReply := rfl
@[simp] theorem State.logCall_spTrail : (s.logCall c).spTrail = s.spTrail := rfl
@[simp] theorem State.logCall_calls : (s.logCall c).calls = s.calls ++ [c] := rfl
@[simp] theorem State.logCall_responses : (s.logCall c).responses = s.responses := rfl
@[simp] theorem State.logCall_pending : (s.logCall c).pending = s.pending := rfl
end

section
variable (s : State) (r : FaultRecord)
@[simp] theorem State.logTrap_cfg : (s.logTrap r).cfg = s.cfg := rfl
@[simp] theorem State.logTrap_mem : (s.logTrap r).mem = s.mem := rfl
@[simp] theorem State.logTrap_slots : (s.logTrap r).slots = s.slots := rfl
@[simp] theorem State.logTrap_sp : (s.logTrap r).sp = s.sp := rfl
@[simp] theorem State.logTrap_pc : (s.logTrap r).pc = s.pc := rfl
@[simp] theorem State.logTrap_retAddr : (s.logTrap r).retAddr = s.retAddr := rfl
@[simp] theorem State.logTrap_phase : (s.logTrap r).phase = s.phase := rfl
@[simp] theorem State.logTrap_trapLog : (s.logTrap r).trapLog = s.trapLog ++ [r] := rfl
@[simp] theorem State.logTrap_data : (s.logTrap r).data = s.data := rfl
@[simp] theorem State.logTrap_spReply : (s.logTrap r).spReply = s.spReply := rfl
@[simp] theorem State.logTrap_spTrail : (s.logTrap r).spTrail = s.spTrail := rfl
@[simp] theorem State.logTrap_calls : (s.logTrap r).calls = s.calls := rfl
@[simp] theorem State.logTrap_responses : (s.logTrap r).responses = s.responses := rfl
@[simp] theorem State.logTrap_pending : (s.logTrap r).pending = s.pending := rfl
end

section
variable (s : State) (op : BitVec 4) (flag : Bool) (value : BitVec 24) (bytes : List Byte)
@[simp] theorem State.respond_cfg : (s.respond op flag value bytes).cfg = s.cfg := rfl
@[simp] theorem State.respond_mem : (s.respond op flag value bytes).mem = s.mem := rfl
@[simp] theorem State.respond_slots : (s.respond op flag value bytes).slots = s.slots := rfl
@[simp] theorem State.respond_sp : (s.respond op flag value bytes).sp = s.sp := rfl
@[simp] theorem State.respond_pc : (s.respond op flag value bytes).pc = s.pc := rfl
@[simp] theorem State.respond_retAddr : (s.respond op flag value bytes).retAddr = s.retAddr := rfl
@[simp] theorem State.respond_phase : (s.respond op flag value bytes).phase = s.phase := rfl
@[simp] theorem State.respond_trapLog : (s.respond op flag value bytes).trapLog = s.trapLog := rfl
@[simp] theorem State.respond_data : (s.respond op flag value bytes).data = [] := rfl
@[simp] theorem State.respond_spReply : (s.respond op flag value bytes).spReply = s.spReply := rfl
@[simp] theorem State.respond_spTrail : (s.respond op flag value bytes).spTrail = s.spTrail := rfl
@[simp] theorem State.respond_calls : (s.respond op flag value bytes).calls = s.calls := rfl
@[simp] theorem State.respond_responses : (s.respond op flag value bytes).responses = s.responses ++ [{ word := rspWord op flag value, bytes := bytes }] := rfl
@[simp] theorem State.respond_pending : (s.respond op flag value bytes).pending = s.pending := rfl
end

section
variable (s : State) (r : Request)
@[simp] theorem State.present_cfg : (s.present r).cfg = s.cfg := rfl
@[simp] theorem State.present_mem : (s.present r).mem = s.mem := rfl
@[simp] theorem State.present_slots : (s.present r).slots = s.slots := rfl
@[simp] theorem State.present_sp : (s.present r).sp = s.sp := rfl
@[simp] theorem State.present_pc : (s.present r).pc = r.pc := rfl
@[simp] theorem State.present_retAddr : (s.present r).retAddr = s.retAddr := rfl
@[simp] theorem State.present_phase : (s.present r).phase = s.phase := rfl
@[simp] theorem State.present_trapLog : (s.present r).trapLog = s.trapLog := rfl
@[simp] theorem State.present_data : (s.present r).data = r.data := rfl
@[simp] theorem State.present_spReply : (s.present r).spReply = r.spReply := rfl
@[simp] theorem State.present_spTrail : (s.present r).spTrail = s.spTrail := rfl
@[simp] theorem State.present_calls : (s.present r).calls = s.calls := rfl
@[simp] theorem State.present_responses : (s.present r).responses = s.responses := rfl
@[simp] theorem State.present_pending : (s.present r).pending = s.pending := rfl
end

section
variable (s : State)
@[simp] theorem raiseMemOob_cfg : (raiseMemOob s).cfg = s.cfg := rfl
@[simp] theorem raiseMemOob_mem : (raiseMemOob s).mem = s.mem := rfl
@[simp] theorem raiseMemOob_slots : (raiseMemOob s).slots = s.slots := rfl
@[simp] theorem raiseMemOob_sp : (raiseMemOob s).sp = s.sp := rfl
@[simp] theorem raiseMemOob_pc : (raiseMemOob s).pc = s.pc := rfl
@[simp] theorem raiseMemOob_retAddr : (raiseMemOob s).retAddr = s.retAddr := rfl
@[simp] theorem raiseMemOob_phase : (raiseMemOob s).phase = s.phase := rfl
@[simp] theorem raiseMemOob_trapLog : (raiseMemOob s).trapLog = s.trapLog ++ [{ source := .memOob, faultingInstructionAddress := s.pc }] := rfl
@[simp] theorem raiseMemOob_data : (raiseMemOob s).data = s.data := rfl
@[simp] theorem raiseMemOob_spReply : (raiseMemOob s).spReply = s.spReply := rfl
@[simp] theorem raiseMemOob_spTrail : (raiseMemOob s).spTrail = s.spTrail := rfl
@[simp] theorem raiseMemOob_calls : (raiseMemOob s).calls = s.calls ++ [ProcCall.currentProgramCounter s.pc, ProcCall.enterTrap { source := .memOob, faultingInstructionAddress := s.pc }] := by
  simp [raiseMemOob]
@[simp] theorem raiseMemOob_responses : (raiseMemOob s).responses = s.responses := rfl
@[simp] theorem raiseMemOob_pending : (raiseMemOob s).pending = s.pending := rfl
@[simp] theorem sampleSp_cfg : (sampleSp s).cfg = s.cfg := rfl
@[simp] theorem sampleSp_mem : (sampleSp s).mem = s.mem := rfl
@[simp] theorem sampleSp_slots : (sampleSp s).slots = s.slots := rfl
@[simp] theorem sampleSp_sp : (sampleSp s).sp = s.sp := rfl
@[simp] theorem sampleSp_pc : (sampleSp s).pc = s.pc := rfl
@[simp] theorem sampleSp_retAddr : (sampleSp s).retAddr = s.retAddr := rfl
@[simp] theorem sampleSp_phase : (sampleSp s).phase = s.phase := rfl
@[simp] theorem sampleSp_trapLog : (sampleSp s).trapLog = s.trapLog := rfl
@[simp] theorem sampleSp_data : (sampleSp s).data = s.data := rfl
@[simp] theorem sampleSp_spReply : (sampleSp s).spReply = s.spReply := rfl
@[simp] theorem sampleSp_spTrail : (sampleSp s).spTrail = s.spTrail := rfl
@[simp] theorem sampleSp_calls : (sampleSp s).calls = s.calls ++ [ProcCall.currentStackPointer s.sp] := rfl
@[simp] theorem sampleSp_responses : (sampleSp s).responses = s.responses := rfl
@[simp] theorem sampleSp_pending : (sampleSp s).pending = s.pending := rfl
end

section
variable (cfg : Config)
@[simp] theorem State.resetWith_cfg : (State.resetWith cfg).cfg = cfg := rfl
@[simp] theorem State.resetWith_mem : (State.resetWith cfg).mem = [] := rfl
@[simp] theorem State.resetWith_slots : (State.resetWith cfg).slots = [] := rfl
@[simp] theorem State.resetWith_sp : (State.resetWith cfg).sp = cfg.spEmpty := rfl
@[simp] theorem State.resetWith_pc : (State.resetWith cfg).pc = 0x0000#16 := rfl
@[simp] theorem State.resetWith_retAddr : (State.resetWith cfg).retAddr = 0x0000#16 := rfl
@[simp] theorem State.resetWith_phase : (State.resetWith cfg).phase = .init := rfl
@[simp] theorem State.resetWith_trapLog : (State.resetWith cfg).trapLog = [] := rfl
@[simp] theorem State.resetWith_data : (State.resetWith cfg).data = [] := rfl
@[simp] theorem State.resetWith_spReply : (State.resetWith cfg).spReply = { bit := false, sp := 0x0000#16 } := rfl
@[simp] theorem State.resetWith_spTrail : (State.resetWith cfg).spTrail = [] := rfl
@[simp] theorem State.resetWith_calls : (State.resetWith cfg).calls = [] := rfl
@[simp] theorem State.resetWith_responses : (State.resetWith cfg).responses = [] := rfl
@[simp] theorem State.resetWith_pending : (State.resetWith cfg).pending = [] := rfl
end

end Sys2Proof.Machine
end

