-- ==== Sys2Proof/Laws/Ops.lean ====
section
/-! SUPPORT. One lemma per shared operation that says everything it can do, and the meanings as equations for admitted
transactions. -/

namespace Sys2Proof.Machine

/-! ## Admission -/

/-- An admitted transaction is its body. -/
theorem whenAccepted_eq {i : Instr} {s : State} (hp : s.phase = requiredPhase i)
    (hd : s.data.length = dataLength s.cfg i) (body : Host.Outcome State Fault Refusal) : whenAccepted i s body = body := by
  simp [whenAccepted, hp, hd]

/-- A transaction that ends in a next state was admitted. -/
theorem whenAccepted_next {i : Instr} {s t : State} {body : Host.Outcome State Fault Refusal}
    (h : whenAccepted i s body = .next t) :
    s.phase = requiredPhase i ∧ s.data.length = dataLength s.cfg i ∧ body = .next t := by
  unfold whenAccepted at h
  split at h
  · exact nomatch h
  · split at h
    · exact nomatch h
    · exact ⟨by simp_all, by simp_all, h⟩

/-- A transaction that faults was admitted. -/
theorem whenAccepted_fault {i : Instr} {s : State} {f : Fault} {body : Host.Outcome State Fault Refusal}
    (h : whenAccepted i s body = .fault f) :
    s.phase = requiredPhase i ∧ s.data.length = dataLength s.cfg i ∧ body = .fault f := by
  unfold whenAccepted at h
  split at h
  · exact nomatch h
  · split at h
    · exact nomatch h
    · exact ⟨by simp_all, by simp_all, h⟩

/-! ## The pointer -/

theorem spLegal_iff {cfg : Config} {v : Addr} : spLegal cfg v = true ↔ v = cfg.spEmpty ∨ v.toNat < cfg.capacity := by
  simp [spLegal]

/-- A slot index is never the sentinel. -/
theorem ne_spEmpty_of_lt {cfg : Config} {v : Addr} (h : v.toNat < cfg.capacity) : v ≠ cfg.spEmpty := by
  rintro rfl
  have := cfg.capacity_le_spEmpty
  omega

theorem toNat_add_one {cfg : Config} {v : Addr} (h : v.toNat < cfg.capacity) : (v + 1#16).toNat = v.toNat + 1 := by
  have := cfg.capacity_le
  rw [BitVec.toNat_add, BitVec.toNat_ofNat]
  omega

theorem toNat_sub_one {v : Addr} (h : v.toNat ≠ 0) : (v - 1#16).toNat = v.toNat - 1 := by
  have := v.isLt
  rw [BitVec.toNat_sub, BitVec.toNat_ofNat]
  omega

/-- Everything the reference `SpInc()` can answer (R100). -/
theorem refInc_ok {cfg : Config} {sp sp' : Addr} {ovf : Bool} (h : refInc cfg sp = .ok ⟨ovf, sp'⟩) :
    (ovf = false ∧ sp'.toNat < cfg.capacity ∧ sp'.toNat = spDepth cfg sp ∧ spDepth cfg sp < cfg.capacity) ∨
      (ovf = true ∧ sp' = sp ∧ sp.toNat + 1 = cfg.capacity ∧ spDepth cfg sp = cfg.capacity) := by
  have h1 := cfg.one_le_capacity
  unfold refInc at h
  split at h
  · rename_i he
    cases h
    exact .inl ⟨rfl, h1, by simp [spDepth, he], by simpa [spDepth, he] using Nat.lt_of_lt_of_le Nat.zero_lt_one h1⟩
  · rename_i he
    split at h
    · rename_i hlt
      cases h
      have := toNat_add_one (cfg := cfg) (v := sp) (by omega)
      exact .inl ⟨rfl, by omega, by simp [spDepth, he, this], by simpa [spDepth, he] using hlt⟩
    · split at h
      · rename_i heq
        cases h
        exact .inr ⟨rfl, rfl, heq, by simpa [spDepth, he] using heq⟩
      · exact nomatch h

/-- Everything the reference `SpDec()` can answer (R101). -/
theorem refDec_ok {cfg : Config} {sp sp' : Addr} {unf : Bool} (h : refDec cfg sp = .ok ⟨unf, sp'⟩) :
    (unf = true ∧ sp = cfg.spEmpty ∧ sp' = cfg.spEmpty) ∨
      (unf = false ∧ sp.toNat < cfg.capacity ∧ spLegal cfg sp' = true ∧ spDepth cfg sp' = sp.toNat) := by
  have h1 := cfg.one_le_capacity
  unfold refDec at h
  split at h
  · rename_i he
    cases h
    exact .inl ⟨rfl, he, he⟩
  · split at h
    · rename_i hz
      cases h
      exact .inr ⟨rfl, by omega, by simp [spLegal], by simp [spDepth, hz]⟩
    · split at h
      · rename_i hz hlt
        cases h
        have h2 := toNat_sub_one hz
        have h3 : (sp - 1#16).toNat < cfg.capacity := by omega
        exact .inr ⟨rfl, hlt, spLegal_iff.mpr (.inr h3), by
          rw [spDepth, if_neg (ne_spEmpty_of_lt h3), h2]
          omega⟩
      · exact nomatch h

/-- From a legal pointer the reference `SpInc()` answers, and on no overflow `SpDec()` undoes it (R98, R99 (d)). -/
theorem refInc_of_legal {cfg : Config} {sp : Addr} (hl : spLegal cfg sp = true) :
    (spDepth cfg sp < cfg.capacity ∧ ∃ v, refInc cfg sp = .ok ⟨false, v⟩ ∧ v.toNat = spDepth cfg sp) ∨
      (spDepth cfg sp = cfg.capacity ∧ refInc cfg sp = .ok ⟨true, sp⟩) := by
  cases h : refInc cfg sp with
  | error f =>
    exfalso
    rw [spLegal_iff] at hl
    unfold refInc at h
    split at h
    · exact nomatch h
    · rename_i he
      have := hl.resolve_left he
      split at h
      · exact nomatch h
      · split at h
        · exact nomatch h
        · omega
  | ok p =>
    obtain ⟨o, v⟩ := p
    rcases refInc_ok h with ⟨rfl, _, b, c⟩ | ⟨rfl, rfl, _, c⟩
    · exact .inl ⟨c, v, rfl, b⟩
    · exact .inr ⟨c, rfl⟩

/-- From a legal pointer the reference `SpDec()` answers. -/
theorem refDec_of_legal {cfg : Config} {sp : Addr} (hl : spLegal cfg sp = true) :
    (sp = cfg.spEmpty ∧ refDec cfg sp = .ok ⟨true, sp⟩) ∨
      (sp.toNat < cfg.capacity ∧
        ∃ v, refDec cfg sp = .ok ⟨false, v⟩ ∧ spDepth cfg v = sp.toNat ∧ spLegal cfg v = true) := by
  cases h : refDec cfg sp with
  | error f =>
    exfalso
    rw [spLegal_iff] at hl
    unfold refDec at h
    split at h
    · exact nomatch h
    · rename_i he
      have := hl.resolve_left he
      split at h
      · exact nomatch h
      · exact nomatch h
  | ok p =>
    obtain ⟨o, v⟩ := p
    rcases refDec_ok h with ⟨rfl, rfl, rfl⟩ | ⟨rfl, b, c, d⟩
    · exact .inl ⟨rfl, rfl⟩
    · exact .inr ⟨b, v, rfl, d, c⟩

/-- A non-overflowing answer in range leaves a slot index, an overflowing one a legal pointer. -/
theorem incInRange_iff {cfg : Config} {a : SpAnswer} :
    incInRange cfg a = true ↔
      (a.bit = false → a.sp.toNat < cfg.capacity) ∧ (a.bit = true → spLegal cfg a.sp = true) := by
  cases h : a.bit <;> simp [incInRange, h]

theorem spLegal_of_incInRange {cfg : Config} {a : SpAnswer} (h : incInRange cfg a = true) :
    spLegal cfg a.sp = true := by
  rw [incInRange_iff] at h
  cases hb : a.bit
  · exact spLegal_iff.mpr (.inr (h.1 hb))
  · exact h.2 hb

/-- R98 (c) and (e) as statements. -/
theorem incKeepsContract_iff {cfg : Config} {sp : Addr} {trail : List Addr} {a : SpAnswer} :
    incKeepsContract cfg sp trail a = true ↔
      (a.bit = true → a.sp = sp) ∧
        (trailBase sp trail = cfg.spEmpty → (a.bit = true ↔ cfg.capacity ≤ trail.length)) := by
  cases h : a.bit <;> by_cases hb : trailBase sp trail = cfg.spEmpty <;> simp [incKeepsContract, h, hb]

/-- R99 (b) and (d) as statements. -/
theorem decKeepsContract_iff {cfg : Config} {sp : Addr} {trail : List Addr} {a : SpAnswer} :
    decKeepsContract cfg sp trail a = true ↔
      (sp = cfg.spEmpty → a.bit = true) ∧
        (∀ earlier rest, trail = earlier :: rest → a.bit = false ∧ a.sp = earlier) := by
  cases trail <;> cases h : a.bit <;> by_cases hs : sp = cfg.spEmpty <;> simp [decKeepsContract, h, hs]

/-- Everything another processor's answer can be (U2, R17). -/
theorem otherAnswer_ok {cfg : Config} {sp : Addr} {inRange keeps : Bool} {a b : SpAnswer}
    (h : otherAnswer cfg sp inRange keeps a = .ok b) :
    b = a ∧ spLegal cfg sp = true ∧ inRange = true ∧ keeps = true := by
  unfold otherAnswer at h
  split at h
  · rename_i hl
    split at h
    · rename_i hk
      cases h
      simp only [Bool.and_eq_true] at hl
      exact ⟨rfl, hl.1, hl.2, hk⟩
    · exact nomatch h
  · exact nomatch h

/-- Everything `SpInc()` can do: it takes the processor's answer, which is the reference's or one that R98 admits. -/
theorem spInc_ok {s t : State} {ovf : Bool} (h : spInc s = .ok (ovf, t)) :
    ∃ a : SpAnswer, a.bit = ovf ∧ t = s.incremented a ∧ incInRange s.cfg a = true ∧
      ((s.cfg.processor = .reference ∧ refInc s.cfg s.sp = .ok a) ∨
        (s.cfg.processor = .other ∧ a = s.spReply ∧ spLegal s.cfg s.sp = true ∧
          incKeepsContract s.cfg s.sp s.spTrail a = true)) := by
  unfold spInc at h
  split at h
  · rename_i a ha
    cases h
    refine ⟨a, rfl, rfl, ?_⟩
    unfold incAnswer at ha
    split at ha <;> rename_i hp
    · obtain ⟨b, v⟩ := a
      refine ⟨?_, .inl ⟨hp, ha⟩⟩
      rcases refInc_ok ha with ⟨rfl, h1, _⟩ | ⟨rfl, rfl, h1, _⟩
      · simp [incInRange, h1]
      · simpa [incInRange] using spLegal_iff.mpr (.inr (show s.sp.toNat < s.cfg.capacity by omega))
    · obtain ⟨rfl, h1, h2, h3⟩ := otherAnswer_ok ha
      exact ⟨h2, .inr ⟨hp, rfl, h1, h3⟩⟩
  · exact nomatch h

/-- Everything `SpDec()` can do: it takes the processor's answer, which is the reference's or one that R99 admits. -/
theorem spDec_ok {s t : State} {unf : Bool} (h : spDec s = .ok (unf, t)) :
    ∃ a : SpAnswer, a.bit = unf ∧ t = s.decremented a ∧ spLegal s.cfg a.sp = true ∧
      ((s.cfg.processor = .reference ∧ refDec s.cfg s.sp = .ok a) ∨
        (s.cfg.processor = .other ∧ a = s.spReply ∧ spLegal s.cfg s.sp = true ∧
          decKeepsContract s.cfg s.sp s.spTrail a = true)) := by
  unfold spDec at h
  split at h
  · rename_i a ha
    cases h
    refine ⟨a, rfl, rfl, ?_⟩
    unfold decAnswer at ha
    split at ha <;> rename_i hp
    · obtain ⟨b, v⟩ := a
      refine ⟨?_, .inl ⟨hp, ha⟩⟩
      rcases refDec_ok ha with ⟨_, _, h1⟩ | ⟨_, _, h1, _⟩
      · exact spLegal_iff.mpr (.inl h1)
      · exact h1
    · obtain ⟨rfl, h1, h2, h3⟩ := otherAnswer_ok ha
      exact ⟨h2, .inr ⟨hp, rfl, h1, h3⟩⟩
  · exact nomatch h

/-- Everything the read half of `POP` can do (R104, R105). -/
theorem popRead_ok {s t : State} (h : popRead s = .ok t) :
    (s.sp = s.cfg.spEmpty ∧ t = sampleSp s) ∨
      (s.sp.toNat < s.cfg.capacity ∧
        ∃ a, Cells.get s.slots s.sp.toNat = some a ∧ t = (sampleSp s).setRetAddr a) := by
  unfold popRead at h
  split at h
  · rename_i he
    cases h
    exact .inl ⟨he, rfl⟩
  · split at h
    · rename_i hlt
      split at h
      · rename_i a ha
        cases h
        exact .inr ⟨hlt, a, ha, rfl⟩
      · exact nomatch h
    · exact nomatch h

theorem spInc_reference {s : State} (h : s.cfg.processor = .reference) :
    spInc s = (refInc s.cfg s.sp).map (fun a => (a.bit, s.incremented a)) := by
  simp only [spInc, incAnswer, h]
  cases refInc s.cfg s.sp <;> rfl

theorem spDec_reference {s : State} (h : s.cfg.processor = .reference) :
    spDec s = (refDec s.cfg s.sp).map (fun a => (a.bit, s.decremented a)) := by
  simp only [spDec, decAnswer, h]
  cases refDec s.cfg s.sp <;> rfl

theorem spInc_other {s : State} (h : s.cfg.processor = .other) :
    spInc s =
      if spLegal s.cfg s.sp && incInRange s.cfg s.spReply then
        if incKeepsContract s.cfg s.sp s.spTrail s.spReply then .ok (s.spReply.bit, s.incremented s.spReply)
        else .error .spContractBroken
      else .error .spIllegal := by
  simp only [spInc, incAnswer, otherAnswer, h]
  cases spLegal s.cfg s.sp && incInRange s.cfg s.spReply <;>
    cases incKeepsContract s.cfg s.sp s.spTrail s.spReply <;> rfl

theorem spDec_other {s : State} (h : s.cfg.processor = .other) :
    spDec s =
      if spLegal s.cfg s.sp && spLegal s.cfg s.spReply.sp then
        if decKeepsContract s.cfg s.sp s.spTrail s.spReply then .ok (s.spReply.bit, s.decremented s.spReply)
        else .error .spContractBroken
      else .error .spIllegal := by
  simp only [spDec, decAnswer, otherAnswer, h]
  cases spLegal s.cfg s.sp && spLegal s.cfg s.spReply.sp <;>
    cases decKeepsContract s.cfg s.sp s.spTrail s.spReply <;> rfl

/-! ## The meanings of admitted transactions -/

theorem exec_rdblk {src : Addr} {len : Len} {s : State} (hp : s.phase = .run) (hd : s.data = []) :
    exec (.rdblk src len) s =
      if src.toNat + len.toNat ≤ s.cfg.size then
        .next (s.respond Opcode.rdblk true len (Memory.readBlock s.mem src.toNat len.toNat))
      else .next (s.respond Opcode.rdblk false 0#24 []) := by
  rw [exec, execRdblk, whenAccepted_eq hp (by simp [hd, dataLength])]
  simp [valid]

theorem exec_wrblk {dst : Addr} {len : Len} {s : State} (hp : s.phase = .run) (hd : s.data.length = len.toNat) :
    exec (.wrblk dst len) s =
      if dst.toNat + len.toNat ≤ s.cfg.size then
        .next ((s.setMem (Memory.writeBlock s.mem dst.toNat s.data)).respond Opcode.wrblk false 0#24 [])
      else .next ((raiseMemOob s).respond Opcode.wrblk false 0#24 []) := by
  rw [exec, execWrblk, whenAccepted_eq hp (by simp [hd, dataLength])]
  simp [valid]

theorem exec_cpblk {src dst : Addr} {len : Len} {s : State} (hp : s.phase = .run) (hd : s.data = []) :
    exec (.cpblk src dst len) s =
      if src.toNat + len.toNat ≤ s.cfg.size ∧ dst.toNat + len.toNat ≤ s.cfg.size then
        .next ((s.setMem (Memory.copyBlock s.mem src.toNat dst.toNat len.toNat)).respond Opcode.cpblk true 0#24 [])
      else .next (s.respond Opcode.cpblk false 0#24 []) := by
  rw [exec, execCpblk, whenAccepted_eq hp (by simp [hd, dataLength])]
  simp [valid]

theorem exec_clblk {dst : Addr} {len : Len} {s : State} (hp : s.phase = .run) (hd : s.data = []) :
    exec (.clblk dst len) s =
      if dst.toNat + len.toNat ≤ s.cfg.size then
        .next ((s.setMem (Memory.clearBlock s.mem dst.toNat len.toNat)).respond Opcode.clblk true 0#24 [])
      else .next (s.respond Opcode.clblk false 0#24 []) := by
  rw [exec, execClblk, whenAccepted_eq hp (by simp [hd, dataLength])]
  simp [valid]

theorem exec_fetch {pc : Addr} {s : State} (hp : s.phase = .run) (hd : s.data = []) :
    exec (.fetch pc) s =
      if pc.toNat + 1 < s.cfg.size then
        .next (s.respond Opcode.fetch false (valueOfWord (Memory.fetchWord s.mem pc.toNat)) [])
      else .fault .fetchOutOfRange := by
  rw [exec, execFetch, whenAccepted_eq hp (by simp [hd, dataLength])]
  simp [fetchInRange]

theorem exec_load {unreadable : Bool} {len : Len} {s : State} (hp : s.phase = .init)
    (hd : s.data.length = if unreadable = false ∧ s.cfg.entryOffset + len.toNat < s.cfg.size then len.toNat else 0) :
    exec (.load unreadable len) s =
      if unreadable = false ∧ s.cfg.entryOffset + len.toNat < s.cfg.size then
        .next (((s.setMem (Memory.writeBlock (loadBoot s) s.cfg.entryOffset s.data)).setPhase .run).respond
          Opcode.load true len [])
      else .next (((s.setMem (loadBoot s)).setPhase .run).respond Opcode.load false 0#24 []) := by
  rw [exec, execLoad, whenAccepted_eq hp (by simp [hd, dataLength, loadFits])]
  simp [loadFits]

/-! ## The meanings, from their next state -/

/-- Everything `RDBLK` can do. -/
theorem execRdblk_next {src : Addr} {len : Len} {s t : State} (h : execRdblk src len s = .next t) :
    s.phase = .run ∧ s.data = [] ∧ ∃ flag value bytes, t = s.respond Opcode.rdblk flag value bytes := by
  obtain ⟨hp, hd, hb⟩ := whenAccepted_next h
  refine ⟨hp, List.length_eq_zero_iff.mp hd, ?_⟩
  split at hb <;> cases hb <;> exact ⟨_, _, _, rfl⟩

/-- Everything `WRBLK` can do. -/
theorem execWrblk_next {dst : Addr} {len : Len} {s t : State} (h : execWrblk dst len s = .next t) :
    s.phase = .run ∧ s.data.length = len.toNat ∧
      ((dst.toNat + len.toNat ≤ s.cfg.size ∧
          t = (s.setMem (Memory.writeBlock s.mem dst.toNat s.data)).respond Opcode.wrblk false 0#24 []) ∨
        (s.cfg.size < dst.toNat + len.toNat ∧ t = (raiseMemOob s).respond Opcode.wrblk false 0#24 [])) := by
  obtain ⟨hp, hd, hb⟩ := whenAccepted_next h
  refine ⟨hp, hd, ?_⟩
  split at hb <;> rename_i hv <;> cases hb
  · exact .inl ⟨by simpa [valid] using hv, rfl⟩
  · exact .inr ⟨by simpa [valid] using hv, rfl⟩

/-- Everything `CPBLK` can do. -/
theorem execCpblk_next {src dst : Addr} {len : Len} {s t : State} (h : execCpblk src dst len s = .next t) :
    s.phase = .run ∧ s.data = [] ∧
      ((src.toNat + len.toNat ≤ s.cfg.size ∧ dst.toNat + len.toNat ≤ s.cfg.size ∧
          t = (s.setMem (Memory.copyBlock s.mem src.toNat dst.toNat len.toNat)).respond Opcode.cpblk true 0#24 []) ∨
        t = s.respond Opcode.cpblk false 0#24 []) := by
  obtain ⟨hp, hd, hb⟩ := whenAccepted_next h
  refine ⟨hp, List.length_eq_zero_iff.mp hd, ?_⟩
  split at hb <;> rename_i hv <;> cases hb
  · simp only [valid, Bool.and_eq_true, decide_eq_true_eq] at hv
    exact .inl ⟨hv.1, hv.2, rfl⟩
  · exact .inr rfl

/-- Everything `CLBLK` can do. -/
theorem execClblk_next {dst : Addr} {len : Len} {s t : State} (h : execClblk dst len s = .next t) :
    s.phase = .run ∧ s.data = [] ∧
      ((dst.toNat + len.toNat ≤ s.cfg.size ∧
          t = (s.setMem (Memory.clearBlock s.mem dst.toNat len.toNat)).respond Opcode.clblk true 0#24 []) ∨
        t = s.respond Opcode.clblk false 0#24 []) := by
  obtain ⟨hp, hd, hb⟩ := whenAccepted_next h
  refine ⟨hp, List.length_eq_zero_iff.mp hd, ?_⟩
  split at hb <;> rename_i hv <;> cases hb
  · exact .inl ⟨by simpa [valid] using hv, rfl⟩
  · exact .inr rfl

/-- Everything `FETCH` can do. -/
theorem execFetch_next {pc : Addr} {s t : State} (h : execFetch pc s = .next t) :
    s.phase = .run ∧ s.data = [] ∧ pc.toNat + 1 < s.cfg.size ∧
      t = s.respond Opcode.fetch false (valueOfWord (Memory.fetchWord s.mem pc.toNat)) [] := by
  obtain ⟨hp, hd, hb⟩ := whenAccepted_next h
  split at hb <;> rename_i hv <;> cases hb
  exact ⟨hp, List.length_eq_zero_iff.mp hd, by simpa [fetchInRange] using hv, rfl⟩

/-- Everything `PUSH` can do. -/
theorem execPush_next {address : Addr} {s t : State} (h : execPush address s = .next t) :
    s.phase = .run ∧ s.data = [] ∧ ∃ ovf s1, spInc s = .ok (ovf, s1) ∧
      ((ovf = true ∧ t = s1.respond Opcode.push true 0#24 []) ∨
        (ovf = false ∧ t = ((sampleSp s1).setSlot s1.sp.toNat address).respond Opcode.push false 0#24 [])) := by
  obtain ⟨hp, hd, hb⟩ := whenAccepted_next h
  refine ⟨hp, List.length_eq_zero_iff.mp hd, ?_⟩
  split at hb
  · exact nomatch hb
  · rename_i s1 hi
    cases hb
    exact ⟨true, s1, hi, .inl ⟨rfl, rfl⟩⟩
  · rename_i s1 hi
    cases hb
    exact ⟨false, s1, hi, .inr ⟨rfl, rfl⟩⟩

/-- Everything `POP` can do. -/
theorem execPop_next {s t : State} (h : execPop s = .next t) :
    s.phase = .run ∧ s.data = [] ∧ ∃ s1 unf s2, popRead s = .ok s1 ∧ spDec s1 = .ok (unf, s2) ∧
      t = s2.respond Opcode.pop unf (valueOfWord s2.retAddr) [] := by
  obtain ⟨hp, hd, hb⟩ := whenAccepted_next h
  refine ⟨hp, List.length_eq_zero_iff.mp hd, ?_⟩
  split at hb
  · exact nomatch hb
  · rename_i s1 hr
    split at hb
    · exact nomatch hb
    · rename_i unf s2 hdec
      cases hb
      exact ⟨s1, unf, s2, hr, hdec, rfl⟩

/-- Everything `LOAD` can do. -/
theorem execLoad_next {unreadable : Bool} {len : Len} {s t : State} (h : execLoad unreadable len s = .next t) :
    s.phase = .init ∧
      ((unreadable = false ∧ s.cfg.entryOffset + len.toNat < s.cfg.size ∧ s.data.length = len.toNat ∧
          t = ((s.setMem (Memory.writeBlock (loadBoot s) s.cfg.entryOffset s.data)).setPhase .run).respond
            Opcode.load true len []) ∨
        (loadFits s.cfg unreadable len.toNat = false ∧ s.data = [] ∧
          t = ((s.setMem (loadBoot s)).setPhase .run).respond Opcode.load false 0#24 [])) := by
  obtain ⟨hp, hd, hb⟩ := whenAccepted_next h
  refine ⟨hp, ?_⟩
  split at hb <;> rename_i hv <;> cases hb
  · refine .inl ?_
    simp only [dataLength, hv, if_true] at hd
    simp only [loadFits, Bool.and_eq_true, Bool.not_eq_true', decide_eq_true_eq] at hv
    exact ⟨hv.1, hv.2, hd, rfl⟩
  · refine .inr ⟨by simpa using hv, ?_, rfl⟩
    simpa [dataLength, hv] using hd

/-! ## Presenting a transaction -/

/-- Everything `takeRequest` can do. -/
theorem takeRequest_some {s t : State} {cw : CommandWord} (h : takeRequest s = some (cw, t)) :
    ∃ r rest, s.pending = r :: rest ∧ cw = r.word ∧ t = ({ s with pending := rest }).present r := by
  unfold takeRequest at h
  split at h
  · exact nomatch h
  · rename_i r rest hp
    cases h
    exact ⟨r, rest, hp, rfl, rfl⟩

end Sys2Proof.Machine
end

