-- ==== Sys2Proof/Tests/Slice0.lean ====
section
/-! SUPPORT. The model's own tests. Expected results are those of `95_test_vectors.md` and of the worked encodings of
`30_encoding.md` section 7; each test names its vector. The second half shows, for every statement with hypotheses, a
state and operands that meet them, clause by clause. -/

namespace Sys2Proof.Tests

open Sys2Proof Sys2Proof.Machine

/-! ## Helpers -/

/-- A field of the next state, if there is one. -/
def after {α : Type} (o : Host.Outcome State Fault Refusal) (f : State → α) : Option α :=
  match o with
  | .next t => some (f t)
  | .fault _ => none
  | .refused _ => none

/-- The fault, if that is the outcome. -/
def faultOf (o : Host.Outcome State Fault Refusal) : Option Fault :=
  match o with
  | .next _ => none
  | .fault f => some f
  | .refused _ => none

/-- The refusal, if that is the outcome. -/
def refusalOf (o : Host.Outcome State Fault Refusal) : Option Refusal :=
  match o with
  | .next _ => none
  | .fault _ => none
  | .refused r => some r

/-- `n` consecutive cells from `a`. -/
def cells (a n : Nat) (s : State) : List Byte := Memory.readBlock s.mem a n

/-- The response words so far. -/
def words (s : State) : List ResponseWord := s.responses.map Response.word

/-- `G8-4K` in the run phase, with the given bytes at `a`, all else zero, and `PC = 0x0246`. -/
def running (a : Nat) (bytes : List Byte) : State :=
  { State.reset with phase := .run, mem := Memory.writeBlock [] a bytes, pc := 0x0246#16 }

/-- `G8-4K` in the run phase with `SP` and the written slots given. -/
def stacked (sp : Addr) (slots : Slots) : State := { running 0 [] with sp := sp, slots := slots }

/-- `G8-4K` with the boot image of V-LD-10 to V-LD-12. -/
def bootConfig : Config :=
  { size := 4096, capacity := 16, entryOffset := 512, bootImage := [0xDE#8, 0xAD#8, 0xBE#8, 0xEF#8], spEmpty := 0xFFFF#16,
    processor := .reference }

/-- The overlapping configuration of V-LD-13 and V-LD-14. -/
def overlapConfig : Config :=
  { size := 4096, capacity := 16, entryOffset := 2, bootImage := [0x11#8, 0x22#8, 0x33#8, 0x44#8], spEmpty := 0xFFFF#16,
    processor := .reference }

/-- The smallest machine with room for two slots. -/
def tinyConfig : Config :=
  { size := 16, capacity := 2, entryOffset := 4, bootImage := [0xDE#8], spEmpty := 0xFFFF#16, processor := .reference }

/-- The tiny machine in the run phase. -/
def tiny : State := { State.resetWith tinyConfig with phase := .run }

/-- A tiny machine with one address on the stack. -/
def oneDeep : State := { tiny with sp := 0x0000#16, spTrail := [0xFFFF#16], slots := [(0, 0x0202#16)] }

/-- The tiny machine with a processor other than the reference. -/
def otherTiny : State := { State.resetWith { tinyConfig with processor := .other } with phase := .run }

/-- That machine after one push, which its processor answered with slot 1. -/
def otherDeep : State := { otherTiny with sp := 0x0001#16, spTrail := [0xFFFF#16], slots := [(1, 0x0202#16)] }

/-! ## Well-formedness -/

theorem test_unreadable_load_with_a_length_is_ill_formed : (Instr.load true 5#24).wellFormed = false := by decide

theorem test_unreadable_load_without_a_length_is_well_formed : (Instr.load true 0#24).wellFormed = true := by decide

theorem test_longest_load_is_well_formed : (Instr.load false 0xFFFFFF#24).wellFormed = true := by decide

/-! ## Decoding: one word of the spec per operation (`30_encoding.md` section 7, V-DE-1 to V-DE-14) -/

theorem test_decode_rdblk : decodeTableWord 64 0x1000000400000200 = some (.rdblk 0x0200#16 4#24) := by decide
theorem test_decode_wrblk : decodeTableWord 64 0x2000000300000300 = some (.wrblk 0x0300#16 3#24) := by decide
theorem test_decode_cpblk : decodeTableWord 64 0x3000000403010300 = some (.cpblk 0x0300#16 0x0301#16 4#24) := by decide
theorem test_decode_clblk : decodeTableWord 64 0x4000001000000300 = some (.clblk 0x0300#16 16#24) := by decide
theorem test_decode_fetch : decodeTableWord 64 0x50000000000001FE = some (.fetch 0x01FE#16) := by decide
theorem test_decode_push : decodeTableWord 64 0x6000000000000202 = some (.push 0x0202#16) := by decide
theorem test_decode_pop : decodeTableWord 64 0x7000000000000000 = some .pop := by decide
theorem test_decode_load : decodeTableWord 64 0x80000BB800000000 = some (.load false 3000#24) := by decide
theorem test_decode_load_unreadable : decodeTableWord 64 0x8100000000000000 = some (.load true 0#24) := by decide

/-- V-DE-5 to V-DE-14: the reserved words. -/
theorem test_decode_reserved :
    decodeTableWord 64 0x0000000000000000 = none ∧ decodeTableWord 64 0x9000000000000000 = none ∧
    decodeTableWord 64 0xF000000000000000 = none ∧ decodeTableWord 64 0x1200000400000200 = none ∧
    decodeTableWord 64 0x1100000400000200 = none ∧ decodeTableWord 64 0x1000000400010200 = none ∧
    decodeTableWord 64 0x7000000000000001 = none ∧ decodeTableWord 64 0x5000000100000200 = none ∧
    decodeTableWord 64 0x8100000100000000 = none ∧ decodeTableWord 64 0x8000000000000200 = none := by decide

/-- The encoder gives the spec's words. -/
theorem test_encode :
    encode (.rdblk 0x0FFE#16 3#24) = 0x1000000300000FFE#64 ∧ encode (.wrblk 0xFFFF#16 1#24) = 0x200000010000FFFF#64 ∧
    encode (.cpblk 0x0302#16 0x0300#16 4#24) = 0x3000000403000302#64 ∧
    encode (.clblk 0x0302#16 2#24) = 0x4000000200000302#64 ∧ encode (.fetch 0xFFFF#16) = 0x500000000000FFFF#64 ∧
    encode (.push 0x0202#16) = 0x6000000000000202#64 ∧ encode .pop = 0x7000000000000000#64 ∧
    encode (.load false 3600#24) = 0x80000E1000000000#64 ∧ encode (.load true 0#24) = 0x8100000000000000#64 := by
  decide

/-! ## One step of each operation -/

/-- Every row of the opcode table runs as the first command placed with `withFetchWord`. -/
theorem test_every_row_runs_after_reset :
    ∀ w ∈ [0x1000000000000000, 0x2000000000000000, 0x3000000000000000, 0x4000000000000000, 0x5000000000000000,
        0x6000000000000000, 0x7000000000000000, 0x8000000000000000],
      (after (step (State.reset.withFetchWord 64 w)) (fun t => t.responses.length)) = some 1 := by decide

/-- V-RD-2. -/
theorem test_rdblk_reads :
    after (exec (.rdblk 0x0200#16 4#24) (running 0x200 [0xA2#8, 0x34#8, 0x00#8, 0xE0#8])) (fun t => t.responses) =
      some [{ word := 0x11000004#32, bytes := [0xA2#8, 0x34#8, 0x00#8, 0xE0#8] }] := by decide

/-- V-RD-6, the wrap case. -/
theorem test_rdblk_does_not_wrap :
    after (exec (.rdblk 0xFFFF#16 1#24) (running 0 [0x01#8])) (fun t => (t.responses, t.trapLog)) =
      some ([{ word := 0x10000000#32, bytes := [] }], []) := by decide

/-- V-WR-1. -/
theorem test_wrblk_writes :
    after (exec (.wrblk 0x0300#16 3#24) { running 0 [] with data := [0x01#8, 0x02#8, 0x03#8] })
        (fun t => (cells 0x2FF 5 t, words t, t.trapLog)) =
      some ([0x00#8, 0x01#8, 0x02#8, 0x03#8, 0x00#8], [0x20000000#32], []) := by decide

/-- V-WR-3. -/
theorem test_wrblk_overhang_signals :
    after (exec (.wrblk 0x0FFE#16 3#24) { running 0 [] with data := [0xAA#8, 0xBB#8, 0xCC#8] })
        (fun t => (t.mem, words t, t.trapLog.map FaultRecord.port)) =
      some ([], [0x20000000#32], [(0x01#8, 0x0246#16)]) := by decide

/-- V-CP-2: a copy upwards into the source replicates. -/
theorem test_cpblk_replicates :
    after (exec (.cpblk 0x0300#16 0x0301#16 4#24) (running 0x300 [0x03#8, 0x04#8, 0x05#8, 0x06#8, 0x05#8, 0x06#8]))
        (fun t => (cells 0x300 6 t, words t)) =
      some ([0x03#8, 0x03#8, 0x03#8, 0x03#8, 0x03#8, 0x06#8], [0x31000000#32]) := by decide

/-- V-CP-7: only the destination is invalid. -/
theorem test_cpblk_bad_destination :
    after (exec (.cpblk 0x0300#16 0x0FFF#16 2#24) (running 0x300 [0x01#8, 0x02#8]))
        (fun t => (cells 0x300 2 t, cells 0xFFF 1 t, words t, t.trapLog)) =
      some ([0x01#8, 0x02#8], [0x00#8], [0x30000000#32], []) := by decide

/-- V-CL-1. -/
theorem test_clblk_clears :
    after (exec (.clblk 0x0302#16 2#24) (running 0x300 [0x03#8, 0x03#8, 0x03#8, 0x03#8, 0x03#8, 0x06#8]))
        (fun t => (cells 0x300 6 t, words t)) =
      some ([0x03#8, 0x03#8, 0x00#8, 0x00#8, 0x03#8, 0x06#8], [0x41000000#32]) := by decide

/-- V-CL-7: zero length above `SIZE`. -/
theorem test_clblk_zero_length_above_size :
    after (exec (.clblk 0x1001#16 0#24) (running 0 [])) words = some [0x40000000#32] := by decide

/-- V-FE-1 and V-FE-2. -/
theorem test_fetch_is_big_endian :
    after (exec (.fetch 0x01FE#16) (running 0x1FE [0xA2#8, 0x34#8])) words = some [0x5000A234#32] ∧
    after (exec (.fetch 0x01FF#16) (running 0x1FE [0xA2#8, 0x34#8])) words = some [0x50003400#32] := by decide

/-- V-FE-4 and V-FE-5: the last address in contract and the first outside it. -/
theorem test_fetch_at_the_top :
    after (exec (.fetch 0x0FFE#16) (running 0xFFE [0x12#8, 0xEF#8])) words = some [0x500012EF#32] ∧
    faultOf (exec (.fetch 0x0FFF#16) (running 0xFFE [0x12#8, 0xEF#8])) = some .fetchOutOfRange := by decide

/-- P2 steps 2 and 3: the first push goes to slot 0, through the sentinel. -/
theorem test_push_from_empty :
    after (exec (.push 0x0202#16) (stacked 0xFFFF#16 [])) (fun t => (t.sp, t.slots, words t)) =
      some (0x0000#16, [(0, 0x0202#16)], [0x60000000#32]) := by decide

/-- P4 step 17: the push above capacity changes nothing. -/
theorem test_push_overflows :
    after (exec (.push 0x0220#16) (stacked 0x000F#16 [(15, 0x021E#16)])) (fun t => (t.sp, t.slots, words t)) =
      some (0x000F#16, [(15, 0x021E#16)], [0x61000000#32]) := by decide

/-- The example of R104. -/
theorem test_pop_reads_the_top :
    after (exec .pop (stacked 0x0001#16 [(0, 0x0202#16), (1, 0x0300#16)]))
        (fun t => (t.sp, t.retAddr, t.slots, words t)) =
      some (0x0000#16, 0x0300#16, [(0, 0x0202#16), (1, 0x0300#16)], [0x70000300#32]) := by decide

/-- P2 step 6: the stale address on underflow. -/
theorem test_pop_underflows :
    after (exec .pop { stacked 0xFFFF#16 [(0, 0x0202#16)] with retAddr := 0x0202#16 })
        (fun t => (t.sp, t.retAddr, words t)) =
      some (0xFFFF#16, 0x0202#16, [0x71000202#32]) := by decide

/-- V-LD-13: the external image wins the overlap. -/
theorem test_load_overlap :
    after (exec (.load false 3#24) { State.resetWith overlapConfig with data := [0xAA#8, 0xBB#8, 0xCC#8] })
        (fun t => (cells 0 6 t, words t, t.phase)) =
      some ([0x11#8, 0x22#8, 0xAA#8, 0xBB#8, 0xCC#8, 0x00#8], [0x81000003#32], .run) := by decide

/-- V-LD-4 and V-LD-10: an image that would end at the top is rejected, the boot image stays. -/
theorem test_load_too_long :
    after (exec (.load false 3584#24) (State.resetWith bootConfig)) (fun t => (t.mem, words t, t.phase)) =
      some ([(0, 0xDE#8), (1, 0xAD#8), (2, 0xBE#8), (3, 0xEF#8)], [0x80000000#32], .run) := by decide

/-- V-PH-1 and V-PH-3: commands in the wrong phase. -/
theorem test_wrong_phase :
    refusalOf (exec (.rdblk 0x0000#16 1#24) State.reset) = some .commandBeforeLoad ∧
    refusalOf (exec (.load false 0#24) (running 0 [])) = some .loadWhileRunning := by decide

/-! ## Witnesses: encoding -/

theorem witness_DecodeOfEncode :
    (Instr.rdblk 0xFFFF#16 0xFFFFFF#24).wellFormed = true ∧ (Instr.load true 0#24).wellFormed = true ∧
    (Instr.load false 0xFFFFFF#24).wellFormed = true := by decide

theorem witness_EncodeOfDecode : decode 0x80FFFFFF00000000#64 = .ok (.load false 0xFFFFFF#24) := by decide

theorem witness_ReservedWordsAreRefused :
    (([⟨0xF000000000000000#64, [], 0x0000#16, ⟨false, 0x0000#16⟩⟩] : List Request) =
      ⟨0xF000000000000000#64, [], 0x0000#16, ⟨false, 0x0000#16⟩⟩ :: [] ∧ ¬WordWellFormed 0xF000000000000000) ∧
    ¬WordWellFormed 0 ∧ ¬WordWellFormed 0x8100000100000000 ∧ WordWellFormed 0x8000000100000000 ∧
    WordWellFormed 0x30FFFFFFFFFFFFFF ∧ decode 0x7000000000000000#64 = .ok .pop :=
  ⟨⟨rfl, by decide⟩, by decide, by decide, by decide, by decide, by decide⟩

theorem witness_DecodedOperandsAreTheFields :
    decode 0x10FFFFFF0000FFFF#64 = .ok (.rdblk 0xFFFF#16 0xFFFFFF#24) ∧
    decode 0x20FFFFFF0000FFFF#64 = .ok (.wrblk 0xFFFF#16 0xFFFFFF#24) ∧
    decode 0x30FFFFFF0001FFFF#64 = .ok (.cpblk 0xFFFF#16 0x0001#16 0xFFFFFF#24) ∧
    decode 0x40FFFFFF0000FFFF#64 = .ok (.clblk 0xFFFF#16 0xFFFFFF#24) ∧
    decode 0x500000000000FFFF#64 = .ok (.fetch 0xFFFF#16) ∧ decode 0x600000000000FFFF#64 = .ok (.push 0xFFFF#16) ∧
    decode 0x7000000000000000#64 = .ok .pop ∧ decode 0x8100000000000000#64 = .ok (.load true 0#24) := by decide

theorem witness_TableMasksDecideDecoding :
    0x30FFFFFF0001FFFF#64 &&& 0xFF00000000000000#64 = 0x3000000000000000#64 ∧
    0x8100000000000000#64 &&& 0xFE000000FFFFFFFF#64 = 0x8000000000000000#64 := by decide

/-! ## Witnesses: the range predicate -/

/-- V-VAL-2, V-VAL-3, V-VAL-6, V-VAL-7, V-VAL-8 on the tiny machine. -/
theorem witness_ValidIsIntegerInclusion :
    valid tinyConfig 0x0000#16 16 = true ∧ valid tinyConfig 0x0000#16 17 = false ∧
    valid tinyConfig 0x0010#16 0 = true ∧ valid tinyConfig 0x0010#16 1 = false ∧
    valid tinyConfig 0x0011#16 0 = false ∧ 1 ≤ 1 ∧ tinyConfig.size ≤ (0x0010#16).toNat := by decide

theorem witness_ZeroLengthOperations :
    tiny.phase = .run ∧ tiny.data = [] ∧ (0x0010#16).toNat ≤ tiny.cfg.size ∧ tiny.cfg.size < (0x0011#16).toNat := by
  decide

theorem witness_FailedOperationsChangeNoCell :
    tiny.phase = .run ∧ tiny.data = [] ∧ tiny.cfg.size < (0x000F#16).toNat + (2#24).toNat ∧
    ({ tiny with data := [0x01#8, 0x02#8] } : State).data.length = (2#24).toNat := by decide

/-! ## Witnesses: bus operations -/

theorem witness_RdblkReturnsTheBlock :
    tiny.phase = .run ∧ tiny.data = [] ∧ (0x000F#16).toNat + (1#24).toNat ≤ tiny.cfg.size ∧ 0 < (1#24).toNat ∧
    tiny.cfg.size < (0x000F#16).toNat + (2#24).toNat := by decide

theorem witness_WrblkWritesOrSignals :
    ({ tiny with data := [0x01#8] } : State).phase = .run ∧
    ({ tiny with data := [0x01#8] } : State).data.length = (1#24).toNat ∧
    (0x000F#16).toNat + (1#24).toNat ≤ tiny.cfg.size ∧ tiny.cfg.size < (0x0010#16).toNat + (1#24).toNat := by decide

theorem witness_WriteThenReadReturnsTheBytes :
    ({ tiny with data := [0x01#8, 0x02#8] } : State).phase = .run ∧
    ({ tiny with data := [0x01#8, 0x02#8] } : State).data.length = (2#24).toNat ∧
    (0x000E#16).toNat + (2#24).toNat ≤ tiny.cfg.size := by decide

theorem witness_OutOfBoundsReadAndWrite :
    tiny.phase = .run ∧ tiny.data = [] ∧ ({ tiny with data := [0x01#8] } : State).data.length = (1#24).toNat ∧
    tiny.cfg.size < (0x0010#16).toNat + (1#24).toNat ∧
    ((0x0010#16).toNat ≤ tiny.cfg.size ∧ tiny.cfg.size - (0x0010#16).toNat < (1#24).toNat) := by decide

theorem witness_CpblkRunsTheForwardLoop :
    tiny.phase = .run ∧ tiny.data = [] ∧
    ((0x0000#16).toNat + (15#24).toNat ≤ tiny.cfg.size ∧ (0x0001#16).toNat + (15#24).toNat ≤ tiny.cfg.size) ∧
    tiny.cfg.size < (0x0001#16).toNat + (16#24).toNat := by decide

theorem witness_CopyMovesOrReplicates :
    tiny.phase = .run ∧ tiny.data = [] ∧
    ((0x0000#16).toNat + (15#24).toNat ≤ tiny.cfg.size ∧ (0x0001#16).toNat + (15#24).toNat ≤ tiny.cfg.size) ∧
    ((0x0000#16).toNat < (0x0001#16).toNat ∧ (0x0001#16).toNat < (0x0000#16).toNat + (15#24).toNat) ∧
    ((0x0001#16).toNat ≤ (0x0001#16).toNat) ∧ ((0x0000#16).toNat + (8#24).toNat ≤ (0x0008#16).toNat) := by decide

theorem witness_ClblkZeroesTheRange :
    tiny.phase = .run ∧ tiny.data = [] ∧ (0x000F#16).toNat + (1#24).toNat ≤ tiny.cfg.size ∧
    tiny.cfg.size < (0x000F#16).toNat + (2#24).toNat := by decide

theorem witness_FetchReturnsTheBigEndianWord :
    tiny.phase = .run ∧ tiny.data = [] ∧ (0x000E#16).toNat + 1 < tiny.cfg.size := by decide

theorem witness_FetchOutOfRangeFaults :
    tiny.phase = .run ∧ tiny.data = [] ∧ tiny.cfg.size ≤ (0x000F#16).toNat + 1 := by decide

theorem witness_WriteThenFetchIsBigEndian :
    ({ tiny with data := [0xA2#8, 0x34#8] } : State).phase = .run ∧
    ({ tiny with data := [0xA2#8, 0x34#8] } : State).data = [0xA2#8, 0x34#8] ∧
    (0x000D#16).toNat + 2 ≤ tiny.cfg.size := by decide

/-! ## Witnesses: the region loader and the phases -/

/-- The tiny machine at reset: the longest image that fits, the shortest that does not, an unreadable source. -/
theorem witness_LoadPlacesTheImages :
    (State.resetWith tinyConfig).phase = .init ∧
    ({ State.resetWith tinyConfig with data := List.replicate 11 0x01#8 } : State).data.length =
      (if false = false ∧ tinyConfig.entryOffset + (11#24).toNat < tinyConfig.size then (11#24).toNat else 0) ∧
    (false = false ∧ tinyConfig.entryOffset + (11#24).toNat < tinyConfig.size) ∧
    tinyConfig.size ≤ tinyConfig.entryOffset + (12#24).toNat ∧
    (State.resetWith tinyConfig).data.length =
      (if false = false ∧ tinyConfig.entryOffset + (12#24).toNat < tinyConfig.size then (12#24).toNat else 0) ∧
    (State.resetWith tinyConfig).data.length =
      (if true = false ∧ tinyConfig.entryOffset + (0#24).toNat < tinyConfig.size then (0#24).toNat else 0) := by decide

theorem witness_LoadBoundIsStrict :
    (State.resetWith tinyConfig).phase = .init ∧ tinyConfig.entryOffset + (12#24).toNat = tinyConfig.size ∧
    (State.resetWith tinyConfig).data = [] ∧ tinyConfig.entryOffset + (11#24).toNat < tinyConfig.size ∧
    ({ State.resetWith tinyConfig with data := List.replicate 11 0x01#8 } : State).data.length = (11#24).toNat ∧
    tinyConfig.entryOffset + (0#24).toNat < tinyConfig.size ∧
    (State.resetWith tinyConfig).data.length = (0#24).toNat := by decide

theorem witness_FailedLoadLeavesTheBootImage :
    ((State.resetWith tinyConfig).phase = .init ∧ (State.resetWith tinyConfig).data = [] ∧
      ∀ a, Memory.read (State.resetWith tinyConfig).mem a = 0x00#8) ∧
    tinyConfig.size ≤ tinyConfig.entryOffset + (12#24).toNat :=
  ⟨⟨rfl, rfl, fun _ => rfl⟩, by decide⟩

theorem witness_PhaseProtocol :
    (State.resetWith tinyConfig).phase = .init ∧ (∀ unreadable len, Instr.pop ≠ .load unreadable len) ∧
    tiny.phase = .run ∧ after (exec .pop tiny) (fun t => t.phase) = some .run ∧
    after (exec (.load true 0#24) (State.resetWith tinyConfig)) (fun t => t.phase) = some .run :=
  ⟨rfl, fun _ _ => by simp, rfl, by decide, by decide⟩

theorem witness_WrongDataLengthIsRefused :
    ({ tiny with data := [0x01#8] } : State).phase = .run ∧
    ({ tiny with data := [0x01#8] } : State).data.length ≠ (2#24).toNat ∧
    ({ tiny with data := [0x01#8] } : State).data ≠ [] ∧
    ({ State.resetWith tinyConfig with data := [0x01#8] } : State).phase = .init ∧
    tinyConfig.entryOffset + (0#24).toNat < tinyConfig.size ∧
    ({ State.resetWith tinyConfig with data := [0x01#8] } : State).data.length ≠ (0#24).toNat ∧
    tinyConfig.size ≤ tinyConfig.entryOffset + (12#24).toNat := by decide

/-! ## Witnesses: the call stack -/

theorem witness_ReferenceSpInc :
    tiny.cfg.processor = .reference ∧ tiny.sp = tiny.cfg.spEmpty ∧ tiny.cfg.spEmpty = 0xFFFF#16 ∧
    spLegal tiny.cfg tiny.sp = true ∧ spDepth tiny.cfg tiny.sp < tiny.cfg.capacity ∧
    (0x0000#16 ≠ tiny.cfg.spEmpty ∧ (0x0000#16).toNat < tiny.cfg.capacity - 1) ∧
    (0x0001#16).toNat = tiny.cfg.capacity - 1 ∧
    (0x0002#16 ≠ tiny.cfg.spEmpty ∧ tiny.cfg.capacity ≤ (0x0002#16).toNat) := by decide

theorem witness_ReferenceSpDec :
    tiny.cfg.processor = .reference ∧ tiny.sp = tiny.cfg.spEmpty ∧ tiny.cfg.spEmpty = 0xFFFF#16 ∧
    ({ tiny with sp := 0x0000#16 } : State).sp = 0x0000#16 ∧
    (0x0001#16 ≠ 0x0000#16 ∧ (0x0001#16).toNat < tiny.cfg.capacity) ∧
    (0x0002#16 ≠ tiny.cfg.spEmpty ∧ tiny.cfg.capacity ≤ (0x0002#16).toNat) ∧
    spLegal tiny.cfg 0x0001#16 = true ∧ 0 < spDepth tiny.cfg 0x0001#16 := by decide

theorem witness_ReferenceMeetsTheContract :
    tiny.cfg.processor = .reference ∧ spLegal tiny.cfg tiny.sp = true ∧
    tiny.spTrail = referenceTrail tiny.cfg (spDepth tiny.cfg tiny.sp) ∧ spLegal tiny.cfg 0x0001#16 = true ∧
    ([0x0000#16, 0xFFFF#16] : List Addr) = referenceTrail tiny.cfg (spDepth tiny.cfg 0x0001#16) := by decide

/-- Below capacity, at capacity, every clause for another processor, and an illegal pointer. The other processor takes
slot 1 first; two increments standing on the empty stack are its capacity. -/
theorem witness_PushWritesTheNewTop :
    (tiny.phase = .run ∧ tiny.data = [] ∧ tiny.cfg.processor = .reference ∧ spLegal tiny.cfg tiny.sp = true) ∧
    spDepth tiny.cfg 0x0000#16 < tiny.cfg.capacity ∧ spDepth tiny.cfg 0x0001#16 = tiny.cfg.capacity ∧
    (otherTiny.phase = .run ∧ otherTiny.data = [] ∧ otherTiny.cfg.processor = .other ∧
      spLegal otherTiny.cfg otherTiny.sp = true ∧ otherTiny.IncContract ⟨false, 0x0001#16⟩) ∧
    ({ otherDeep with sp := 0x0000#16, spTrail := [0x0001#16, 0xFFFF#16] } : State).IncContract ⟨true, 0x0000#16⟩ ∧
    otherTiny.cfg.capacity ≤ (0x0002#16).toNat ∧ spLegal otherTiny.cfg 0x0002#16 = false ∧
    (incInRange otherDeep.cfg ⟨true, 0x0001#16⟩ = true ∧ ¬otherDeep.IncContract ⟨true, 0x0001#16⟩) := by decide

/-- A processor other than the reference may use the slots in its own order; an overflow below capacity, or a pointer
moved on overflow, is none that R98 admits. -/
theorem test_push_with_another_processor :
    after (exec (.push 0x0202#16) { otherTiny with spReply := ⟨false, 0x0001#16⟩ }) (fun t => (t.sp, t.slots, words t)) =
      some (0x0001#16, [(1, 0x0202#16)], [0x60000000#32]) ∧
    faultOf (exec (.push 0x0202#16) { otherDeep with spReply := ⟨true, 0x0001#16⟩ }) = some .spContractBroken ∧
    faultOf (exec (.push 0x0202#16) { otherTiny with sp := 0x0000#16, spReply := ⟨true, 0x0001#16⟩ }) =
      some .spContractBroken := by decide

/-- No underflow at the sentinel, or a decrement that does not undo the push, is none that R99 admits. -/
theorem test_pop_with_another_processor :
    after (exec .pop { otherDeep with spReply := ⟨false, 0xFFFF#16⟩ }) (fun t => (t.sp, t.spTrail, words t)) =
      some (0xFFFF#16, [], [0x70000202#32]) ∧
    faultOf (exec .pop { otherDeep with spReply := ⟨false, 0x0000#16⟩ }) = some .spContractBroken ∧
    faultOf (exec .pop { otherTiny with spReply := ⟨false, 0xFFFF#16⟩ }) = some .spContractBroken := by decide

theorem witness_EveryProcessorKeepsTheContract :
    (otherDeep.inv = true ∧ otherDeep.TrailOk) ∧ (otherTiny.inv = true ∧ otherTiny.TrailOk) ∧
    (oneDeep.inv = true ∧ oneDeep.TrailOk) ∧
    after (exec (.push 0x0300#16) { otherDeep with spReply := ⟨false, 0x0000#16⟩ }) (fun t => t.spTrail.length) = some 2 ∧
    after (exec .pop { otherDeep with spReply := ⟨false, 0xFFFF#16⟩ }) words = some [0x70000202#32] ∧
    after (exec .pop { otherTiny with spReply := ⟨true, 0xFFFF#16⟩ }) words = some [0x71000000#32] := by decide

theorem witness_ContractLeavesAnAnswer :
    (otherDeep.cfg.processor = .other ∧ otherDeep.inv = true ∧ otherDeep.TrailOk ∧ otherDeep.phase = .run ∧
      otherDeep.data = []) ∧
    (Cells.get otherDeep.slots otherDeep.sp.toNat).isSome = true ∧ otherTiny.sp = otherTiny.cfg.spEmpty := by decide

theorem witness_AnyProcessorOverflowsAtCapacity :
    otherTiny.cfg.processor = .other ∧ otherTiny.sp = otherTiny.cfg.spEmpty ∧ otherTiny.spTrail = [] ∧
    after (pushAll [(0x0200#16, ⟨false, 0x0001#16⟩), (0x0202#16, ⟨false, 0x0000#16⟩), (0x0204#16, ⟨true, 0x0000#16⟩)]
      otherTiny) words = some [0x60000000#32, 0x60000000#32, 0x61000000#32] := by decide

theorem witness_PopUndoesPushForAnyProcessor :
    ({ otherTiny with spReply := ⟨false, 0x0001#16⟩ } : State).cfg.processor = .other ∧
    ({ otherTiny with spReply := ⟨false, 0x0001#16⟩ } : State).spReply.bit = false ∧
    after (exec (.push 0x0202#16) { otherTiny with spReply := ⟨false, 0x0001#16⟩ }) (fun t => t) =
      some { otherDeep with
        spReply := ⟨false, 0x0001#16⟩
        calls := [.incrementStackPointer false, .currentStackPointer 0x0001#16]
        responses := [{ word := 0x60000000#32, bytes := [] }] } ∧
    after (exec .pop { otherDeep with spReply := ⟨false, 0xFFFF#16⟩ }) (fun t => t.retAddr) = some 0x0202#16 := by decide

theorem witness_PushingToCapacityNeverOverflows :
    tiny.phase = .run ∧ tiny.data = [] ∧ tiny.cfg.processor = .reference ∧ tiny.sp = tiny.cfg.spEmpty ∧
    [0x0200#16, 0x0202#16].length = tiny.cfg.capacity := by decide

theorem witness_PopReturnsTheTop :
    (oneDeep.phase = .run ∧ oneDeep.data = [] ∧ oneDeep.cfg.processor = .reference ∧
      oneDeep.sp.toNat < oneDeep.cfg.capacity ∧ Cells.get oneDeep.slots oneDeep.sp.toNat = some 0x0202#16) ∧
    (tiny.phase = .run ∧ tiny.data = [] ∧ tiny.cfg.processor = .reference ∧ tiny.sp = tiny.cfg.spEmpty) ∧
    (otherDeep.phase = .run ∧ otherDeep.data = [] ∧ otherDeep.cfg.processor = .other ∧
      otherDeep.sp.toNat < otherDeep.cfg.capacity ∧ Cells.get otherDeep.slots otherDeep.sp.toNat = some 0x0202#16) ∧
    otherDeep.DecContract ⟨false, 0xFFFF#16⟩ ∧
    (otherTiny.sp = otherTiny.cfg.spEmpty ∧ otherTiny.DecContract ⟨true, 0x0001#16⟩) ∧
    (spLegal otherDeep.cfg 0x0002#16 = false ∧ spLegal otherDeep.cfg 0x0000#16 = true ∧
      (Cells.get otherDeep.slots otherDeep.sp.toNat).isSome = true) ∧
    ¬otherDeep.DecContract ⟨false, 0x0000#16⟩ ∧ spLegal ({ oneDeep with sp := 0x0002#16 } : State).cfg 0x0002#16 = false :=
  ⟨by decide, by decide, by decide, ⟨by decide, by decide, fun _ _ h => by cases h; decide⟩,
    ⟨by decide, by decide, by decide, fun _ _ h => nomatch h⟩, by decide,
    fun h => absurd (h.2.2 _ _ rfl).2 (by decide), by decide⟩

theorem witness_PopOfAnUnwrittenSlotFaults :
    ({ tiny with sp := 0x0001#16 } : State).phase = .run ∧ ({ tiny with sp := 0x0001#16 } : State).data = [] ∧
    (0x0001#16).toNat < tiny.cfg.capacity ∧ Cells.get ({ tiny with sp := 0x0001#16 } : State).slots 1 = none := by
  decide

theorem witness_PushThenPopRestores :
    oneDeep.phase = .run ∧ oneDeep.data = [] ∧ oneDeep.cfg.processor = .reference ∧
    spLegal oneDeep.cfg oneDeep.sp = true ∧ spDepth oneDeep.cfg oneDeep.sp < oneDeep.cfg.capacity := by decide

theorem witness_PopsReturnPushesInReverse :
    tiny.phase = .run ∧ tiny.data = [] ∧ tiny.cfg.processor = .reference ∧ tiny.sp = tiny.cfg.spEmpty ∧
    (0x0200#16 :: [0x0202#16]).length ≤ tiny.cfg.capacity := by decide

theorem witness_DepthMovesByOne :
    (oneDeep.phase = .run ∧ oneDeep.data = [] ∧ oneDeep.cfg.processor = .reference ∧
      spLegal oneDeep.cfg oneDeep.sp = true ∧ oneDeep.StackFilled) ∧
    ((∀ address, Instr.fetch 0x0000#16 ≠ .push address) ∧ Instr.fetch 0x0000#16 ≠ .pop ∧
      after (exec (.fetch 0x0000#16) oneDeep) (fun t => t.sp) = some 0x0000#16) :=
  ⟨by decide, fun _ => by simp, by decide, by decide⟩

theorem witness_TheTwoSpacesAreSeparate :
    after (exec (.push 0x0202#16) tiny) (fun t => t.mem) = some [] ∧
    after (exec (.fetch 0x0000#16) oneDeep) (fun t => t.slots) = some [(0, 0x0202#16)] := by decide

/-! ## Witnesses: the whole machine -/

theorem witness_OnlyBadWritesSignal :
    tiny.cfg.size < (0x0010#16).toNat + (1#24).toNat ∧ (0x000F#16).toNat + (1#24).toNat ≤ tiny.cfg.size ∧
    after (exec (.wrblk 0x0010#16 1#24) { tiny with data := [0x01#8] }) (fun t => t.trapLog.length) = some 1 ∧
    after (exec (.wrblk 0x000F#16 1#24) { tiny with data := [0x01#8] }) (fun t => t.trapLog.length) = some 0 := by
  decide

/-- V-WR-9. -/
theorem witness_SecondBadWriteSignalsAgain :
    ({ tiny with data := [0x01#8] } : State).phase = .run ∧
    ({ tiny with data := [0x01#8] } : State).data.length = (1#24).toNat ∧
    [0x02#8, 0x03#8].length = (2#24).toNat ∧ tiny.cfg.size < (0x0010#16).toNat + (1#24).toNat ∧
    tiny.cfg.size < (0x000F#16).toNat + (2#24).toNat := by decide

theorem witness_OneResponsePerTransaction :
    after (exec (.rdblk 0x0000#16 16#24) tiny) words = some [0x11000010#32] ∧
    after (exec .pop tiny) words = some [0x71000000#32] := by decide

/-- A bad write, presented with its own `PC`. -/
def badWrite : Request := ⟨0x2000000100000010#64, [0x01#8], 0x0246#16, ⟨false, 0x0000#16⟩⟩

theorem witness_StepPerformsTheDecodedCommand :
    ({ tiny with pending := [badWrite] } : State).pending = badWrite :: [] ∧
    decode badWrite.word = .ok (.wrblk 0x0010#16 1#24) := by decide

theorem witness_StepWithNothingPendingIsIdle : tiny.pending = [] := by decide

theorem witness_BadWriteRecordsThePresentedPc :
    tiny.phase = .run ∧ ({ tiny with pending := [badWrite] } : State).pending = badWrite :: [] ∧
    decode badWrite.word = .ok (.wrblk 0x0010#16 1#24) ∧ badWrite.data.length = (1#24).toNat ∧
    tiny.cfg.size < (0x0010#16).toNat + (1#24).toNat := by decide

/-! ## Witnesses: invariants -/

/-- A good state in which a push is pending, and its step. -/
def pushPending : State :=
  { oneDeep with pending := [⟨0x6000000000000300#64, [], 0x0000#16, ⟨false, 0x0000#16⟩⟩] }

theorem witness_StepKeepsTheInvariant :
    pushPending.inv = true ∧ after (step pushPending) (fun t => (t.inv, t.sp)) = some (true, 0x0001#16) := by decide

/-- The same with a processor other than the reference, which answers with slot 0. -/
def otherPushPending : State :=
  { otherDeep with pending := [⟨0x6000000000000300#64, [], 0x0000#16, ⟨false, 0x0000#16⟩⟩] }

theorem witness_StepKeepsTheTrail :
    (pushPending.inv = true ∧ pushPending.TrailOk ∧
      after (step pushPending) (fun t => t.spTrail) = some [0x0000#16, 0xFFFF#16]) ∧
    (otherPushPending.inv = true ∧ otherPushPending.TrailOk ∧
      after (step otherPushPending) (fun t => t.spTrail) = some [0x0001#16, 0xFFFF#16]) := by decide

theorem witness_StepKeepsTheStackFilled :
    pushPending.inv = true ∧ pushPending.ReferenceProcessor ∧ pushPending.StackFilled ∧
    after (step pushPending) (fun t => t.slots) = some [(0, 0x0202#16), (1, 0x0300#16)] := by decide

/-- A good state in which a fetch outside the store is pending. -/
def fetchPending : State :=
  { oneDeep with pending := [⟨0x500000000000000F#64, [], 0x0000#16, ⟨false, 0x0000#16⟩⟩] }

theorem witness_OnlyFetchFaultsWithTheReferenceProcessor :
    fetchPending.inv = true ∧ fetchPending.ReferenceProcessor ∧ fetchPending.StackFilled ∧
    faultOf (step fetchPending) = some .fetchOutOfRange := by decide

theorem witness_StepOnlyAppendsToTheLogs :
    ({ tiny with pending := [badWrite] } : State).TrapLogRecordsEnterTrap ∧
    after (step { tiny with pending := [badWrite] }) (fun t => (t.trapLog.length, t.calls.length)) = some (1, 2) := by
  decide

end Sys2Proof.Tests
end

