-- ==== Sys2Proof/Proofs/ContractAnswers.lean ====
section
/-! The processor contract of R98 and R99 is never empty: a processor other than the reference always has an answer, and
an answer that keeps the contract completes the operation. -/

namespace Sys2Proof.Machine

/-! ## Operations complete on an answer that keeps the contract -/

/-- An answer that R98 admits is taken. -/
theorem spInc_of_incContract {s : State} (ho : s.cfg.processor = .other) (hl : spLegal s.cfg s.sp = true)
    (hc : s.IncContract s.spReply) : spInc s = .ok (s.spReply.bit, s.incremented s.spReply) := by
  obtain ⟨hslot, hcount, hlegal, hkept⟩ := hc
  have hrange : incInRange s.cfg s.spReply = true := incInRange_iff.mpr ⟨hslot, fun _ => hlegal⟩
  have hkeeps : incKeepsContract s.cfg s.sp s.spTrail s.spReply = true := incKeepsContract_iff.mpr ⟨hkept, hcount⟩
  simp [spInc_other ho, hl, hrange, hkeeps]

/-- An answer that R99 admits is taken. -/
theorem spDec_of_decContract {s : State} (ho : s.cfg.processor = .other) (hl : spLegal s.cfg s.sp = true)
    (hc : s.DecContract s.spReply) : spDec s = .ok (s.spReply.bit, s.decremented s.spReply) := by
  obtain ⟨hempty, hlegal, hundo⟩ := hc
  have hkeeps : decKeepsContract s.cfg s.sp s.spTrail s.spReply = true := decKeepsContract_iff.mpr ⟨hempty, hundo⟩
  simp [spDec_other ho, hl, hlegal, hkeeps]

/-- An admitted `PUSH` whose increment is answered completes (R102). -/
theorem exec_push_of_spInc {address : Addr} {s s1 : State} {ovf : Bool} (hp : s.phase = .run) (hd : s.data = [])
    (hi : spInc s = .ok (ovf, s1)) :
    exec (.push address) s = .next
      (if ovf then s1.respond Opcode.push true 0#24 []
        else ((sampleSp s1).setSlot s1.sp.toNat address).respond Opcode.push false 0#24 []) := by
  rw [exec, execPush, whenAccepted_eq hp (by simp [hd, dataLength]), hi]
  cases ovf <;> rfl

/-- An admitted `POP` whose read and decrement are answered completes (R104). -/
theorem exec_pop_of_spDec {s s1 s2 : State} {unf : Bool} (hp : s.phase = .run) (hd : s.data = [])
    (hr : popRead s = .ok s1) (hdec : spDec s1 = .ok (unf, s2)) :
    exec .pop s = .next (s2.respond Opcode.pop unf (valueOfWord s2.retAddr) []) := by
  rw [exec, execPop, whenAccepted_eq hp (by simp [hd, dataLength]), hr]
  simp only [hdec]

/-! ## The read half of `POP` -/

/-- From a legal pointer that is the sentinel or names a written slot, the read half of `POP` succeeds. -/
theorem popRead_of_written {s : State} (hl : spLegal s.cfg s.sp = true)
    (hw : s.sp = s.cfg.spEmpty ∨ (Cells.get s.slots s.sp.toNat).isSome = true) : ∃ t, popRead s = .ok t := by
  by_cases he : s.sp = s.cfg.spEmpty
  · exact ⟨sampleSp s, by simp [popRead, he]⟩
  · have hlt : s.sp.toNat < s.cfg.capacity := (spLegal_iff.mp hl).resolve_left he
    obtain ⟨address, hget⟩ := Option.isSome_iff_exists.mp (hw.resolve_left he)
    exact ⟨(sampleSp s).setRetAddr address, by simp [popRead, he, hlt, hget]⟩

/-- The read half of `POP` leaves everything the decrement looks at. -/
theorem popRead_keeps_pointer {s t : State} (h : popRead s = .ok t) :
    t.cfg = s.cfg ∧ t.sp = s.sp ∧ t.spTrail = s.spTrail ∧ t.spReply = s.spReply := by
  obtain ⟨-, rfl⟩ | ⟨-, address, -, rfl⟩ := popRead_ok h <;> exact ⟨rfl, rfl, rfl, rfl⟩

/-! ## The contract is never empty -/

/-- The pointer above a chain of increments is legal. -/
theorem spLegal_of_trailChain {cfg : Config} {sp : Addr} {trail : List Addr} (h : trailChain cfg sp trail = true) :
    spLegal cfg sp = true := by
  cases trail with
  | nil => exact h
  | cons earlier rest =>
    simp only [trailChain, Bool.and_eq_true, decide_eq_true_eq] at h
    exact spLegal_iff.mpr (.inr h.1)

/-- R98 leaves an answer: overflow where `CAPACITY` increments stand, slot 0 where fewer do. -/
theorem exists_incContract {s : State} (hl : spLegal s.cfg s.sp = true) : ∃ a, s.IncContract a := by
  by_cases hfull : s.cfg.capacity ≤ s.spTrail.length
  · exact ⟨⟨true, s.sp⟩, nofun, fun _ => ⟨fun _ => hfull, fun _ => rfl⟩, hl, fun _ => rfl⟩
  · have hslot : (0#16).toNat < s.cfg.capacity := s.cfg.one_le_capacity
    exact ⟨⟨false, 0#16⟩, fun _ => hslot, fun _ => ⟨nofun, fun h => absurd h hfull⟩,
      spLegal_iff.mpr (.inr hslot), nofun⟩

/-- R99 leaves an answer: underflow to the sentinel where no increment stands, else the pointer before the newest one.
Its clauses (b) and (d) do not meet, since an increment that stands left a slot index. -/
theorem exists_decContract {s : State} (h : trailChain s.cfg s.sp s.spTrail = true) : ∃ a, s.DecContract a := by
  cases htrail : s.spTrail with
  | nil =>
    exact ⟨⟨true, s.cfg.spEmpty⟩, fun _ => rfl, spLegal_iff.mpr (.inl rfl), fun _ _ hc => by simp [htrail] at hc⟩
  | cons earlier rest =>
    simp only [htrail, trailChain, Bool.and_eq_true, decide_eq_true_eq] at h
    obtain ⟨hslot, hrest⟩ := h
    refine ⟨⟨false, earlier⟩, fun he => absurd he (ne_spEmpty_of_lt hslot), spLegal_of_trailChain hrest, ?_⟩
    intro e r hc
    rw [htrail] at hc
    cases hc
    exact ⟨rfl, rfl⟩

/-! ## Settled -/

/-- Settles O31: an answer that keeps the contract exists, and on it the operation completes. -/
theorem contractLeavesAnAnswer : Obligations.ContractLeavesAnAnswer := by
  intro s ho _ htrail hp hd
  obtain ⟨hchain, -⟩ := htrail.2 ho
  have hl : spLegal s.cfg s.sp = true := spLegal_of_trailChain hchain
  refine ⟨fun address => ?_, fun hw => ?_⟩
  · obtain ⟨a, ha⟩ := exists_incContract hl
    exact ⟨a, _, exec_push_of_spInc hp hd (spInc_of_incContract (s := { s with spReply := a }) ho hl ha)⟩
  · obtain ⟨a, ha⟩ := exists_decContract hchain
    obtain ⟨t, hread⟩ := popRead_of_written (s := { s with spReply := a }) hl hw
    obtain ⟨hcfg, hsp, hst, hrep⟩ := popRead_keeps_pointer hread
    have hdec : spDec t = .ok (t.spReply.bit, t.decremented t.spReply) :=
      spDec_of_decContract (by rw [hcfg]; exact ho) (by rw [hcfg, hsp]; exact hl)
        (by simpa only [State.DecContract, hcfg, hsp, hst, hrep] using ha)
    exact ⟨a, _, exec_pop_of_spDec hp hd hread hdec⟩

end Sys2Proof.Machine
end

