-- ==== Sys2Proof/Proofs/StateInvariants.lean ====
section
/-! What a step can do to the state (`10_state.md`), said once, and from it the invariants of the reachable states. -/

namespace Sys2Proof.Machine

/-! ## Everything a completed operation can do -/

/-- What a completed operation does to the state before its response. -/
inductive Effect (s : State) : State → Prop
  /-- A read, a fetch, or an operation whose range is not valid (R76, R82, R83, R84). -/
  | unchanged : Effect s s
  /-- A write, a copy or a clear inside the Address Space (R77, R80, R83). -/
  | wrote (m : Memory) (hm : Memory.wf s.cfg.size s.mem = true → Memory.wf s.cfg.size m = true) : Effect s (s.setMem m)
  /-- A `WRBLK` outside the Address Space (R77, R115). -/
  | signalled : Effect s (raiseMemOob s)
  /-- A `LOAD`, with its external image or without it (R87, R90). -/
  | loaded (m : Memory) (hm : Memory.wf s.cfg.size s.mem = true → Memory.wf s.cfg.size m = true) :
      Effect s ((s.setMem m).setPhase .run)
  /-- A `PUSH` that overflows (R102). -/
  | overflowed {t : State} (hinc : spInc s = .ok (true, t)) : Effect s t
  /-- A `PUSH` that does not (R102). -/
  | pushed (address : Addr) {t : State} (hinc : spInc s = .ok (false, t)) :
      Effect s ((sampleSp t).setSlot t.sp.toNat address)
  /-- A `POP`, of the empty stack or not (R104). -/
  | popped {t u : State} {unf : Bool} (hread : popRead s = .ok t) (hdec : spDec t = .ok (unf, u)) : Effect s u

theorem wf_loadBoot {s : State} (hm : Memory.wf s.cfg.size s.mem = true) :
    Memory.wf s.cfg.size (loadBoot s) = true :=
  Memory.wf_writeBlock _ hm (by simpa using s.cfg.bootImage_le)

/-- Everything a completed operation can do: one of the effects, then the response, always in the run phase. -/
theorem exec_effect {i : Instr} {s t : State} (h : exec i s = .next t) :
    ∃ u op flag value bytes, Effect s u ∧ u.phase = .run ∧ t = u.respond op flag value bytes := by
  cases i with
  | rdblk src len =>
    obtain ⟨hp, -, _, _, _, rfl⟩ := execRdblk_next h
    exact ⟨_, _, _, _, _, .unchanged, hp, rfl⟩
  | wrblk dst len =>
    obtain ⟨hp, hd, ⟨hv, rfl⟩ | ⟨-, rfl⟩⟩ := execWrblk_next h
    · exact ⟨_, _, _, _, _, .wrote _ fun hm => Memory.wf_writeBlock _ hm (by omega), hp, rfl⟩
    · exact ⟨_, _, _, _, _, .signalled, hp, rfl⟩
  | cpblk src dst len =>
    obtain ⟨hp, -, ⟨-, hv, rfl⟩ | rfl⟩ := execCpblk_next h
    · exact ⟨_, _, _, _, _, .wrote _ fun hm => Memory.wf_copyBlock hm hv, hp, rfl⟩
    · exact ⟨_, _, _, _, _, .unchanged, hp, rfl⟩
  | clblk dst len =>
    obtain ⟨hp, -, ⟨hv, rfl⟩ | rfl⟩ := execClblk_next h
    · exact ⟨_, _, _, _, _, .wrote _ fun hm => Memory.wf_clearBlock hm hv, hp, rfl⟩
    · exact ⟨_, _, _, _, _, .unchanged, hp, rfl⟩
  | fetch pc =>
    obtain ⟨hp, -, -, rfl⟩ := execFetch_next h
    exact ⟨_, _, _, _, _, .unchanged, hp, rfl⟩
  | push address =>
    obtain ⟨hp, -, ovf, s1, hinc, hres⟩ := execPush_next h
    obtain ⟨a, -, rfl, -⟩ := spInc_ok hinc
    obtain ⟨rfl, rfl⟩ | ⟨rfl, rfl⟩ := hres
    · exact ⟨_, _, _, _, _, .overflowed hinc, hp, rfl⟩
    · exact ⟨_, _, _, _, _, .pushed address hinc, hp, rfl⟩
  | pop =>
    obtain ⟨hp, -, s1, unf, s2, hread, hdec, rfl⟩ := execPop_next h
    refine ⟨_, _, _, _, _, .popped hread hdec, ?_, rfl⟩
    obtain ⟨a, -, rfl, -⟩ := spDec_ok hdec
    obtain ⟨-, rfl⟩ | ⟨-, address, -, rfl⟩ := popRead_ok hread <;> exact hp
  | load unreadable len =>
    obtain ⟨-, ⟨-, hfit, hd, rfl⟩ | ⟨-, -, rfl⟩⟩ := execLoad_next h
    · exact ⟨_, _, _, _, _, .loaded _ fun hm => Memory.wf_writeBlock _ (wf_loadBoot hm) (by omega), rfl, rfl⟩
    · exact ⟨_, _, _, _, _, .loaded _ wf_loadBoot, rfl, rfl⟩

/-! ## Everything a faulting operation can be -/

/-- The three operations that can fault, and where in them the fault comes from (R85, R102, R104). -/
theorem exec_fault {i : Instr} {s : State} {f : Fault} (h : exec i s = .fault f) :
    (∃ pc, i = .fetch pc ∧ f = .fetchOutOfRange ∧ s.cfg.size ≤ pc.toNat + 1) ∨
      (∃ address, i = .push address ∧ spInc s = .error f) ∨
      (i = .pop ∧ (popRead s = .error f ∨ ∃ t, popRead s = .ok t ∧ spDec t = .error f)) := by
  cases i with
  | rdblk src len | wrblk dst len | cpblk src dst len | clblk dst len | load unreadable len =>
    obtain ⟨-, -, hb⟩ := whenAccepted_fault h
    split at hb <;> cases hb
  | fetch pc =>
    obtain ⟨-, -, hb⟩ := whenAccepted_fault h
    split at hb <;> rename_i hv <;> cases hb
    exact .inl ⟨pc, rfl, rfl, by simpa [fetchInRange] using hv⟩
  | push address =>
    obtain ⟨-, -, hb⟩ := whenAccepted_fault h
    split at hb <;> rename_i hinc <;> cases hb
    exact .inr (.inl ⟨address, rfl, hinc⟩)
  | pop =>
    obtain ⟨-, -, hb⟩ := whenAccepted_fault h
    split at hb
    · rename_i hread
      cases hb
      exact .inr (.inr ⟨rfl, .inl hread⟩)
    · rename_i t hread
      split at hb <;> rename_i hdec <;> cases hb
      exact .inr (.inr ⟨rfl, .inr ⟨t, hread, hdec⟩⟩)

/-! ## From operations to steps -/

/-- With nothing pending a step leaves the state; otherwise it performs the oldest pending operation. -/
theorem step_next {s t : State} (h : step s = .next t) :
    t = s ∨ ∃ r rest i, s.pending = r :: rest ∧ decode r.word = .ok i ∧
      exec i (({ s with pending := rest } : State).present r) = .next t := by
  unfold step at h
  split at h
  · cases h
    exact .inl rfl
  · rename_i cw s1 htake
    obtain ⟨r, rest, hpend, rfl, rfl⟩ := takeRequest_some htake
    split at h
    · exact nomatch h
    · rename_i i hdecode
      exact .inr ⟨r, rest, i, hpend, hdecode, h⟩

/-- A step faults only in the operation it performs. -/
theorem step_fault {s : State} {f : Fault} (h : step s = .fault f) :
    ∃ r rest i, s.pending = r :: rest ∧ decode r.word = .ok i ∧
      exec i (({ s with pending := rest } : State).present r) = .fault f := by
  unfold step at h
  split at h
  · exact nomatch h
  · rename_i cw s1 htake
    obtain ⟨r, rest, hpend, rfl, rfl⟩ := takeRequest_some htake
    split at h
    · exact nomatch h
    · rename_i i hdecode
      exact ⟨r, rest, i, hpend, hdecode, h⟩

/-- A relation that looks neither at the transaction presented nor at its response holds across a step if it is
reflexive and holds across every effect. -/
theorem step_of_effect {R : State → State → Prop} (hrefl : ∀ s, R s s)
    (hpresent : ∀ s t rest r, R (({ s with pending := rest } : State).present r) t → R s t)
    (hrespond : ∀ s t op flag value bytes, R s t → R s (t.respond op flag value bytes))
    (heffect : ∀ s t, Effect s t → R s t) {s t : State} (h : step s = .next t) : R s t := by
  obtain rfl | ⟨r, rest, i, -, -, hexec⟩ := step_next h
  · exact hrefl t
  · obtain ⟨u, op, flag, value, bytes, heff, -, rfl⟩ := exec_effect hexec
    exact hpresent _ _ _ _ (hrespond _ _ _ _ _ _ (heffect _ _ heff))

/-! ## The canonical forms and the pointer -/

theorem inv_iff {s : State} :
    s.inv = true ↔
      Memory.wf s.cfg.size s.mem = true ∧ Cells.rising s.cfg.capacity 0 s.slots = true ∧ spLegal s.cfg s.sp = true := by
  simp [State.inv, State.memoryOk, State.slotsOk, State.pointerOk, and_assoc]

/-- Every effect keeps the two stores in canonical form and the pointer legal. -/
theorem Effect.inv {s u : State} (h : Effect s u) (hs : s.inv = true) : u.inv = true := by
  obtain ⟨hmem, hslots, hsp⟩ := inv_iff.mp hs
  cases h with
  | unchanged => exact hs
  | wrote m hm => exact inv_iff.mpr ⟨hm hmem, hslots, hsp⟩
  | signalled => exact hs
  | loaded m hm => exact inv_iff.mpr ⟨hm hmem, hslots, hsp⟩
  | overflowed hinc =>
    obtain ⟨a, -, rfl, hrange, -⟩ := spInc_ok hinc
    exact inv_iff.mpr ⟨hmem, hslots, spLegal_of_incInRange hrange⟩
  | pushed address hinc =>
    obtain ⟨a, hbit, rfl, hrange, -⟩ := spInc_ok hinc
    have hslot : a.sp.toNat < s.cfg.capacity := (incInRange_iff.mp hrange).1 hbit
    exact inv_iff.mpr ⟨hmem, Cells.rising_put address hslots (Nat.zero_le _) hslot, spLegal_of_incInRange hrange⟩
  | popped hread hdec =>
    obtain ⟨a, -, rfl, hlegal, -⟩ := spDec_ok hdec
    obtain ⟨-, rfl⟩ | ⟨-, address, -, rfl⟩ := popRead_ok hread <;> exact inv_iff.mpr ⟨hmem, hslots, hlegal⟩

/-- Settles O49: every effect keeps the invariant, and presenting and responding touch nothing it speaks of. -/
theorem stepKeepsTheInvariant : Obligations.StepKeepsTheInvariant := fun _ _ hs h =>
  step_of_effect (R := fun s t => s.inv = true → t.inv = true) (fun _ => id) (fun _ _ _ _ => id)
    (fun _ _ _ _ _ _ => id) (fun _ _ => Effect.inv) h hs

/-! ## The slots up to the top -/

theorem spDepth_spEmpty (cfg : Config) : spDepth cfg cfg.spEmpty = 0 := if_pos rfl

theorem spDepth_of_lt {cfg : Config} {v : Addr} (h : v.toNat < cfg.capacity) : spDepth cfg v = v.toNat + 1 := by
  simp [spDepth, ne_spEmpty_of_lt h]

/-- An increment of the reference processor is the one of R100. -/
theorem spInc_reference_ok {s t : State} {ovf : Bool} (h : spInc s = .ok (ovf, t)) (hp : s.ReferenceProcessor) :
    ∃ v, refInc s.cfg s.sp = .ok ⟨ovf, v⟩ ∧ t = s.incremented ⟨ovf, v⟩ := by
  rw [spInc_reference hp] at h
  cases hinc : refInc s.cfg s.sp with
  | error f => simp [hinc, Except.map] at h
  | ok a =>
    rw [hinc] at h
    cases h
    exact ⟨a.sp, rfl, rfl⟩

/-- A decrement of the reference processor is the one of R101. -/
theorem spDec_reference_ok {s t : State} {unf : Bool} (h : spDec s = .ok (unf, t)) (hp : s.ReferenceProcessor) :
    ∃ v, refDec s.cfg s.sp = .ok ⟨unf, v⟩ ∧ t = s.decremented ⟨unf, v⟩ := by
  rw [spDec_reference hp] at h
  cases hdec : refDec s.cfg s.sp with
  | error f => simp [hdec, Except.map] at h
  | ok a =>
    rw [hdec] at h
    cases h
    exact ⟨a.sp, rfl, rfl⟩

/-- The reference decrement never raises the depth. -/
theorem spDepth_le_of_refDec {cfg : Config} {sp v : Addr} {unf : Bool} (h : refDec cfg sp = .ok ⟨unf, v⟩) :
    spDepth cfg v ≤ spDepth cfg sp := by
  obtain ⟨-, -, rfl⟩ | ⟨-, hlt, -, hdepth⟩ := refDec_ok h
  · rw [spDepth_spEmpty]
    exact Nat.zero_le _
  · rw [hdepth, spDepth_of_lt hlt]
    omega

/-- Every effect keeps the slots up to the top written: a push writes the one slot by which it raises the depth. -/
theorem Effect.stackFilled {s u : State} (h : Effect s u) (hp : s.ReferenceProcessor) (hs : s.StackFilled) :
    u.ReferenceProcessor ∧ u.StackFilled := by
  cases h with
  | unchanged | wrote | signalled | loaded => exact ⟨hp, hs⟩
  | overflowed hinc =>
    obtain ⟨v, href, rfl⟩ := spInc_reference_ok hinc hp
    obtain ⟨hbit, -⟩ | ⟨-, rfl, -⟩ := refInc_ok href
    · exact nomatch hbit
    · exact ⟨hp, hs⟩
  | pushed address hinc =>
    obtain ⟨v, href, rfl⟩ := spInc_reference_ok hinc hp
    obtain ⟨-, hslot, htop, -⟩ | ⟨hbit, -⟩ := refInc_ok href
    · refine ⟨hp, fun i hi => ?_⟩
      have hle : i < v.toNat + 1 := spDepth_of_lt hslot ▸ hi
      by_cases htop' : i = v.toNat
      · simp [htop']
      · simpa [htop'] using hs i (by omega)
    · exact nomatch hbit
  | popped hread hdec =>
    obtain ⟨-, rfl⟩ | ⟨-, address, -, rfl⟩ := popRead_ok hread <;>
    · obtain ⟨v, href, rfl⟩ := spDec_reference_ok hdec hp
      exact ⟨hp, fun i hi => hs i (hi.trans_le (spDepth_le_of_refDec href))⟩

/-- Settles O51: every effect keeps the stack filled, and presenting and responding touch nothing it speaks of. -/
theorem stepKeepsTheStackFilled : Obligations.StepKeepsTheStackFilled := fun _ _ _ hp hs h =>
  step_of_effect (R := fun s t => s.ReferenceProcessor → s.StackFilled → t.ReferenceProcessor ∧ t.StackFilled)
    (fun _ => And.intro) (fun _ _ _ _ => id) (fun _ _ _ _ _ _ => id) (fun _ _ => Effect.stackFilled) h hp hs

/-! ## Faults under the reference processor -/

theorem spInc_reference_ne_error {s : State} {f : Fault} (hp : s.ReferenceProcessor) (hl : spLegal s.cfg s.sp = true) :
    spInc s ≠ .error f := by
  rw [spInc_reference hp]
  obtain ⟨-, v, hinc, -⟩ | ⟨-, hinc⟩ := refInc_of_legal hl <;> rw [hinc] <;> nofun

theorem spDec_reference_ne_error {s : State} {f : Fault} (hp : s.ReferenceProcessor) (hl : spLegal s.cfg s.sp = true) :
    spDec s ≠ .error f := by
  rw [spDec_reference hp]
  obtain ⟨-, hdec⟩ | ⟨-, v, hdec, -⟩ := refDec_of_legal hl <;> rw [hdec] <;> nofun

/-- On a filled stack the pointer is the sentinel or names a written slot. -/
theorem top_written_of_stackFilled {s : State} (hl : spLegal s.cfg s.sp = true) (hs : s.StackFilled) :
    s.sp = s.cfg.spEmpty ∨ (Cells.get s.slots s.sp.toNat).isSome = true :=
  (spLegal_iff.mp hl).imp_right fun hlt => hs _ (by rw [spDepth_of_lt hlt]; omega)

/-- On a good state with the reference processor and a filled stack, `FETCH` outside the store is the one operation
that faults. -/
theorem exec_fault_reference {i : Instr} {s : State} {f : Fault} (h : exec i s = .fault f)
    (hl : spLegal s.cfg s.sp = true) (hp : s.ReferenceProcessor) (hs : s.StackFilled) :
    f = .fetchOutOfRange ∧ ∃ pc, i = .fetch pc ∧ s.cfg.size ≤ pc.toNat + 1 := by
  obtain ⟨t, hread⟩ := popRead_of_written hl (top_written_of_stackFilled hl hs)
  obtain ⟨hcfg, hsp, -⟩ := popRead_keeps_pointer hread
  obtain ⟨pc, hi, hf, hrange⟩ | ⟨address, -, hinc⟩ | ⟨-, hbad | ⟨t', hread', hdec⟩⟩ := exec_fault h
  · exact ⟨hf, pc, hi, hrange⟩
  · exact absurd hinc (spInc_reference_ne_error hp hl)
  · exact nomatch hread.symm.trans hbad
  · cases hread.symm.trans hread'
    exact absurd hdec (spDec_reference_ne_error (by rw [State.ReferenceProcessor, hcfg]; exact hp)
      (by rw [hcfg, hsp]; exact hl))

/-- Settles O52: the performed operation is the one that faults, and only a `FETCH` can. -/
theorem onlyFetchFaultsWithTheReferenceProcessor : Obligations.OnlyFetchFaultsWithTheReferenceProcessor := by
  intro s f hinv hp hs h
  obtain ⟨-, -, hl⟩ := inv_iff.mp hinv
  obtain ⟨r, rest, i, hpend, hdecode, hexec⟩ := step_fault h
  obtain ⟨hf, pc, rfl, hrange⟩ := exec_fault_reference hexec hl hp hs
  exact ⟨hf, r, rest, pc, hpend, hdecode, hrange⟩

/-! ## The phase -/

/-- Every meaning is guarded by the admission test. -/
theorem exec_eq_whenAccepted (i : Instr) (s : State) : ∃ body, exec i s = whenAccepted i s body := by
  cases i <;> exact ⟨_, rfl⟩

/-- Outside its phase an operation is refused, whatever bytes accompany it (U4, U5). -/
theorem exec_of_wrong_phase {i : Instr} {s : State} (h : s.phase ≠ requiredPhase i) :
    exec i s = .refused (phaseRefusal (requiredPhase i)) := by
  obtain ⟨body, hbody⟩ := exec_eq_whenAccepted i s
  rw [hbody, whenAccepted, if_pos h]

theorem requiredPhase_of_ne_load {i : Instr} (h : ∀ unreadable len, i ≠ .load unreadable len) :
    requiredPhase i = .run := by
  cases i with
  | load unreadable len => exact absurd rfl (h unreadable len)
  | _ => rfl

/-- Settles O25: the refusals are those of admission, and every completed operation leaves the run phase. -/
theorem phaseProtocol : Obligations.PhaseProtocol := by
  refine ⟨fun _ => rfl, fun i s hi hinit => ?_, fun unreadable len s hrun => ?_, fun i s t h => ?_⟩
  · have hreq : requiredPhase i = .run := requiredPhase_of_ne_load hi
    rw [exec_of_wrong_phase (by simp [hinit, hreq]), hreq, phaseRefusal]
  · rw [exec_of_wrong_phase (by simp [hrun, requiredPhase]), requiredPhase, phaseRefusal]
  · obtain ⟨u, _, _, _, _, -, hu, rfl⟩ := exec_effect h
    exact hu

/-! ## The logs -/

/-- From `s` to `t` the constants stay, the calls and the responses only grow, and `trap_log` grows by the records that
the new calls hand to `enter_trap` (R33). -/
def LogsGrow (s t : State) : Prop :=
  t.cfg = s.cfg ∧
    (∃ new, t.calls = s.calls ++ new ∧ t.trapLog = s.trapLog ++ new.filterMap ProcCall.trapRecord?) ∧
    s.responses <+: t.responses

theorem LogsGrow.refl (s : State) : LogsGrow s s := ⟨rfl, ⟨[], by simp⟩, List.prefix_rfl⟩

theorem LogsGrow.respond {s t : State} (h : LogsGrow s t) (op : BitVec 4) (flag : Bool) (value : BitVec 24)
    (bytes : List Byte) : LogsGrow s (t.respond op flag value bytes) := by
  obtain ⟨hcfg, hcalls, hresponses⟩ := h
  exact ⟨hcfg, hcalls, hresponses.trans (List.prefix_append _ _)⟩

/-- Every effect grows the logs: a bad write by one trap record, the others by none. -/
theorem Effect.logsGrow {s u : State} (h : Effect s u) : LogsGrow s u := by
  cases h with
  | unchanged | wrote | loaded => exact LogsGrow.refl s
  | signalled => exact ⟨rfl, ⟨_, raiseMemOob_calls s, rfl⟩, List.prefix_rfl⟩
  | overflowed hinc =>
    obtain ⟨a, -, rfl, -⟩ := spInc_ok hinc
    exact ⟨rfl, ⟨[.incrementStackPointer a.bit], rfl, by simp [ProcCall.trapRecord?]⟩, List.prefix_rfl⟩
  | pushed address hinc =>
    obtain ⟨a, -, rfl, -⟩ := spInc_ok hinc
    exact ⟨rfl, ⟨[.incrementStackPointer a.bit, .currentStackPointer a.sp], by simp, by simp [ProcCall.trapRecord?]⟩,
      List.prefix_rfl⟩
  | popped hread hdec =>
    obtain ⟨a, -, rfl, -⟩ := spDec_ok hdec
    obtain ⟨-, rfl⟩ | ⟨-, address, -, rfl⟩ := popRead_ok hread <;>
      exact ⟨rfl, ⟨[.currentStackPointer s.sp, .decrementStackPointer a.bit], by simp, by simp [ProcCall.trapRecord?]⟩,
        List.prefix_rfl⟩

/-- Every step grows the logs. -/
theorem step_logsGrow {s t : State} (h : step s = .next t) : LogsGrow s t :=
  step_of_effect LogsGrow.refl (fun _ _ _ _ => id) (fun _ _ op flag value bytes h => h.respond op flag value bytes)
    (fun _ _ => Effect.logsGrow) h

/-- Settles O53: logs that grow have the old ones as beginnings, and the records of the new calls are those of the new
entries of `trap_log`. -/
theorem stepOnlyAppendsToTheLogs : Obligations.StepOnlyAppendsToTheLogs := by
  intro s t h
  obtain ⟨hcfg, ⟨new, hcalls, htrap⟩, hresponses⟩ := step_logsGrow h
  refine ⟨hcfg, ⟨_, htrap.symm⟩, ⟨_, hcalls.symm⟩, hresponses, fun hs => ?_⟩
  rw [State.TrapLogRecordsEnterTrap, htrap, hcalls, List.filterMap_append, hs]

/-! ## Machine start -/

/-- Settles O7: the fields of `State.resetWith`, and of the default configuration, as they stand. -/
theorem resetValues : Obligations.ResetValues :=
  ⟨fun _ => ⟨Memory.read_nil, fun _ => rfl, rfl, rfl, rfl, rfl⟩, rfl, rfl, rfl, rfl, rfl, rfl⟩

/-- Settles O48: the stores are empty and the pointer is the sentinel, of depth 0. -/
theorem resetMeetsTheInvariants : Obligations.ResetMeetsTheInvariants := by
  intro cfg requests
  have hlegal : spLegal cfg cfg.spEmpty = true := spLegal_iff.mpr (.inl rfl)
  refine ⟨inv_iff.mpr ⟨Memory.wf_nil cfg.size, rfl, hlegal⟩, fun i hi => ?_, rfl, fun _ => ?_,
    fun _ => ⟨hlegal, fun _ => Nat.zero_le _⟩⟩
  · exact absurd (spDepth_spEmpty cfg ▸ hi) (Nat.not_lt_zero i)
  · exact (congrArg (referenceTrail cfg) (spDepth_spEmpty cfg)).symm

/-! ## A slot never written -/

/-- A slot no `PUSH` has written has no value to read (R24, U3). -/
theorem popRead_of_unwritten {s : State} (hlt : s.sp.toNat < s.cfg.capacity)
    (hget : Cells.get s.slots s.sp.toNat = none) : popRead s = .error .slotUnwritten := by
  simp [popRead, ne_spEmpty_of_lt hlt, hlt, hget]

/-- Settles O35: an admitted `POP` stops where its read half does. -/
theorem popOfAnUnwrittenSlotFaults : Obligations.PopOfAnUnwrittenSlotFaults := by
  intro s hp hd hlt hget
  rw [exec, execPop, whenAccepted_eq hp (by simp [hd, dataLength]), popRead_of_unwritten hlt hget]

end Sys2Proof.Machine
end

