-- ==== Sys2Proof/Proofs/MemoryAccess.lean ====
section
/-! The range predicate and the accesses to the Address Space that it guards (`20_memory.md`), and the step that performs
them. -/

namespace Sys2Proof.Machine

/-! ## Responses -/

/-- A response alone changes nothing of what R20 lists. -/
theorem onlyMemoryAndResponse_respond (s : State) (op : BitVec 4) (flag : Bool) (value : BitVec 24) (bytes : List Byte) :
    OnlyMemoryAndResponse s (s.respond op flag value bytes) :=
  ⟨⟨rfl, rfl, rfl, rfl⟩, ⟨rfl, rfl⟩, ⟨rfl, rfl, rfl, rfl⟩, rfl⟩

/-- A transaction that has not responded before is answered by its response. -/
theorem answered_respond {s u : State} {op : BitVec 4} {flag : Bool} {value : BitVec 24} {word : ResponseWord}
    (h : u.responses = s.responses) (hword : rspWord op flag value = word) (bytes : List Byte) :
    Answered s (u.respond op flag value bytes) word bytes := by
  subst hword
  exact ⟨by rw [State.respond_responses, h], rfl⟩

/-! ## The range predicate -/

theorem valid_iff {cfg : Config} {a : Addr} {n : Nat} : valid cfg a n = true ↔ a.toNat + n ≤ cfg.size :=
  decide_eq_true_iff

theorem valid_eq_false_iff {cfg : Config} {a : Addr} {n : Nat} : valid cfg a n = false ↔ cfg.size < a.toNat + n := by
  rw [← Bool.not_eq_true, valid_iff, Nat.not_le]

/-- Settles O8: every consequence is arithmetic on the integer sum, with `SIZE` at most `2^16`. -/
theorem validIsIntegerInclusion : Obligations.ValidIsIntegerInclusion := by
  intro cfg a n
  have hsize := cfg.size_le
  refine ⟨valid_iff, fun hv => ?_, fun hv i hi => ?_, fun hv m hm => ?_, ?_, fun hn ha => ?_⟩
  · have hsum := valid_iff.mp hv
    omega
  · have hsum := valid_iff.mp hv
    omega
  · have hsum := valid_iff.mp hv
    exact valid_iff.mpr (by omega)
  · exact valid_iff.mpr (by simp)
  · exact valid_eq_false_iff.mpr (by omega)

/-- A 16-bit address and a 24-bit length add up without wrapping in 25 bits (R43). -/
theorem toNat_sum25 (a : Addr) (n : Len) : (a.setWidth 25 + n.setWidth 25).toNat = a.toNat + n.toNat := by
  have ha := a.isLt
  have hn := n.isLt
  rw [BitVec.toNat_add, BitVec.toNat_setWidth, BitVec.toNat_setWidth]
  omega

/-- `SIZE` fits 25 bits. -/
theorem toNat_size25 (cfg : Config) : (BitVec.ofNat 25 cfg.size).toNat = cfg.size := by
  have hsize := cfg.size_le
  rw [BitVec.toNat_ofNat]
  omega

/-- Settles O9: the 25-bit sum is the integer sum; the guarded difference does not truncate. -/
theorem wraparoundSafeRealisations : Obligations.WraparoundSafeRealisations := by
  refine ⟨fun cfg a n => ⟨?_, ?_⟩, by decide⟩
  · rw [valid_iff, BitVec.le_def, toNat_sum25, toNat_size25]
  · rw [valid_iff]
    omega

/-! ## Zero lengths -/

@[simp] theorem State.setMem_self (s : State) : s.setMem s.mem = s := rfl

/-- A zero-length read only reports whether its start address is at most `SIZE` (R44). -/
theorem exec_rdblk_zero {a : Addr} {s : State} (hp : s.phase = .run) (hd : s.data = []) :
    exec (.rdblk a 0#24) s = .next (s.respond Opcode.rdblk (decide (a.toNat ≤ s.cfg.size)) 0#24 []) := by
  rw [exec_rdblk hp hd]
  by_cases h : a.toNat ≤ s.cfg.size <;> simp [h, Memory.readBlock]

/-- A zero-length clear only reports whether its start address is at most `SIZE` (R44). -/
theorem exec_clblk_zero {a : Addr} {s : State} (hp : s.phase = .run) (hd : s.data = []) :
    exec (.clblk a 0#24) s = .next (s.respond Opcode.clblk (decide (a.toNat ≤ s.cfg.size)) 0#24 []) := by
  rw [exec_clblk hp hd]
  by_cases h : a.toNat ≤ s.cfg.size <;> simp [h, Memory.clearBlock]

/-- A zero-length copy only reports whether both its start addresses are at most `SIZE` (R44). -/
theorem exec_cpblk_zero {a b : Addr} {s : State} (hp : s.phase = .run) (hd : s.data = []) :
    exec (.cpblk a b 0#24) s =
      .next (s.respond Opcode.cpblk (decide (a.toNat ≤ s.cfg.size ∧ b.toNat ≤ s.cfg.size)) 0#24 []) := by
  rw [exec_cpblk hp hd]
  by_cases h : a.toNat ≤ s.cfg.size ∧ b.toNat ≤ s.cfg.size <;> simp [h, Memory.copyBlock]

/-- A zero-length write only signals, and only above `SIZE` (R44). -/
theorem exec_wrblk_zero {a : Addr} {s : State} (hp : s.phase = .run) (hd : s.data = []) :
    exec (.wrblk a 0#24) s =
      .next ((if a.toNat ≤ s.cfg.size then s else raiseMemOob s).respond Opcode.wrblk false 0#24 []) := by
  rw [exec_wrblk hp (by simp [hd])]
  by_cases h : a.toNat ≤ s.cfg.size <;> simp [h, hd, Memory.writeBlock]

/-- An operation that only reports whether `p` holds changes no cell and answers with its status. -/
theorem status_only {o : Host.Outcome State Fault Refusal} {s : State} {op : BitVec 4} {p : Prop} [Decidable p]
    {pass fail : ResponseWord} (h : o = .next (s.respond op (decide p) 0#24 []))
    (hpass : rspWord op true 0#24 = pass) (hfail : rspWord op false 0#24 = fail) :
    ∃ t, o = .next t ∧ SameMemory s t ∧ OnlyMemoryAndResponse s t ∧ Answered s t (if p then pass else fail) [] := by
  refine ⟨_, h, fun _ => rfl, onlyMemoryAndResponse_respond .., answered_respond rfl ?_ []⟩
  by_cases hp : p <;> simp [hp, hpass, hfail]

/-- Settles O10: on no bytes each block operation comes down to its response, and above `SIZE` a write also signals. -/
theorem zeroLengthOperations : Obligations.ZeroLengthOperations := by
  intro s a b hp hd
  refine ⟨status_only (exec_rdblk_zero hp hd) (by decide) (by decide),
    status_only (exec_clblk_zero hp hd) (by decide) (by decide),
    status_only (exec_cpblk_zero hp hd) (by decide) (by decide), _, exec_wrblk_zero hp hd, ?_⟩
  by_cases h : a.toNat ≤ s.cfg.size
  · rw [if_pos h]
    exact ⟨fun _ => rfl, answered_respond rfl (by decide) [], fun _ => onlyMemoryAndResponse_respond ..,
      fun habove => absurd h (Nat.not_le.mpr habove)⟩
  · rw [if_neg h]
    exact ⟨fun _ => rfl, answered_respond rfl (by decide) [], fun hin => absurd hin h, fun _ => rfl⟩

/-! ## Invalid ranges -/

/-- Settles O11: with a range not valid each meaning takes its failing branch, which touches no cell. -/
theorem failedOperationsChangeNoCell : Obligations.FailedOperationsChangeNoCell := by
  intro s src dst len hp
  refine ⟨fun hd hout => ?_, fun hd hout => ?_, fun hd hout => ?_, fun hd hout => ?_⟩
  · exact ⟨_, (exec_rdblk hp hd).trans (if_neg (by omega)), rfl, answered_respond rfl (by decide) []⟩
  · exact ⟨_, (exec_wrblk hp hd).trans (if_neg (by omega)), rfl, answered_respond rfl (by decide) []⟩
  · exact ⟨_, (exec_cpblk hp hd).trans (if_neg (by omega)), rfl, answered_respond rfl (by decide) []⟩
  · exact ⟨_, (exec_clblk hp hd).trans (if_neg (by omega)), rfl, answered_respond rfl (by decide) []⟩

/-! ## Stores seen by the next fetch -/

/-- Two bytes written at any address form the big-endian word there (R46). -/
theorem Memory.fetchWord_writeBlock_pair (m : Memory) (a : Nat) (h l : Byte) :
    (Memory.fetchWord (Memory.writeBlock m a [h, l]) a).toNat = 256 * h.toNat + l.toNat := by
  simp [Memory.fetchWord_toNat, Memory.writeBlock]

/-- Settles O21: the fetch reads the memory the write left. -/
theorem writeThenFetchIsBigEndian : Obligations.WriteThenFetchIsBigEndian := by
  intro a h l s hp hd hin
  have hwrite := (exec_wrblk (dst := a) (len := 2#24) hp (by simp [hd])).trans (if_pos hin)
  refine ⟨_, _, hwrite, (exec_fetch ?_ rfl).trans (if_pos ?_), answered_respond rfl (rspWord_eq_ofNat ?_) []⟩
  · exact hp
  · exact hin
  · rw [valueOfWord_toNat, State.respond_mem, State.setMem_mem, hd, Memory.fetchWord_writeBlock_pair]
    rfl

/-! ## The step -/

/-- Settles O45: the queue's head is taken, presented and, since it decodes, performed. -/
theorem stepPerformsTheDecodedCommand : Obligations.StepPerformsTheDecodedCommand := by
  intro s r rest i hpend hdecode
  have htake : takeRequest s = some (r.word, ({ s with pending := rest } : State).present r) := by
    rw [takeRequest, hpend]
  simp only [step, htake, hdecode, State.present]

end Sys2Proof.Machine
end

