-- ==== Sys2Proof/Proofs/Encoding.lean ====
section
/-! The command word and the response word (`30_encoding.md`): decoder and encoder are each other's inverse, from which
the operands of a word that decodes, the masks of the opcode table and the words that are refused follow. -/

namespace Sys2Proof

/-! ## The fields of a word -/

/-- A bit is given by its number. -/
theorem bool_toNat_inj {u v : Bool} : u.toNat = v.toNat ↔ u = v := by cases u <;> cases v <;> decide

/-- Two command words are the same if all their fields are. -/
theorem eq_iff_fields_eq {cw cw' : CommandWord} :
    cw = cw' ↔ fieldOp cw = fieldOp cw' ∧ fieldZ cw = fieldZ cw' ∧ fieldU cw = fieldU cw' ∧
      fieldLen cw = fieldLen cw' ∧ fieldB cw = fieldB cw' ∧ fieldA cw = fieldA cw' := by
  have hu : fieldU cw = fieldU cw' ↔ cw.toNat / 2 ^ 56 % 2 = cw'.toNat / 2 ^ 56 % 2 := by
    rw [← fieldU_toNat, ← fieldU_toNat, bool_toNat_inj]
  simp only [hu, ← BitVec.toNat_inj, fieldOp_toNat, fieldZ_toNat, fieldLen_toNat, fieldB_toNat, fieldA_toNat]
  omega

/-- The word of given fields is a given word exactly when the word has those fields and `Z` zero. -/
theorem commandWord_eq_iff {op : BitVec 4} {u : Bool} {len : Len} {b a : Addr} {cw : CommandWord} :
    commandWord op u len b a = cw ↔ fieldOp cw = op ∧ fieldZ cw = 0#3 ∧ fieldU cw = u ∧ fieldLen cw = len ∧
      fieldB cw = b ∧ fieldA cw = a := by
  obtain ⟨hop, hz, hu, hlen, hb, ha⟩ := fields_commandWord op u len b a
  rw [eq_comm, eq_iff_fields_eq, hop, hz, hu, hlen, hb, ha]

/-! ## Decoder and encoder -/

/-- The decoder reads back the fields a command word was built from. -/
theorem decode_commandWord (op : BitVec 4) (u : Bool) (len : Len) (b a : Addr) :
    decode (commandWord op u len b a) = decodeFields op 0#3 u len b a := by
  obtain ⟨hop, hz, hu, hlen, hb, ha⟩ := fields_commandWord op u len b a
  rw [decode, hop, hz, hu, hlen, hb, ha]

/-- The one constraint between operands (R67, R72). -/
theorem wellFormed_load_iff {unreadable : Bool} {len : Len} :
    (Instr.load unreadable len).wellFormed = true ↔ (unreadable = true → len = 0#24) := by
  cases unreadable <;> simp [Instr.wellFormed]

/-- Settles O2: the decoder reads back the fields `encode` writes, and each operation's fields have no defect. -/
theorem decodeOfEncode : Obligations.DecodeOfEncode := by
  intro i hwf
  cases i with
  | rdblk | wrblk | cpblk | clblk | fetch | push | pop =>
    rw [encode, decode_commandWord]
    rfl
  | load unreadable len =>
    rw [encode, decode_commandWord]
    cases unreadable with
    | false => rfl
    | true =>
      obtain rfl := wellFormed_load_iff.mp hwf rfl
      rfl

/-- Fields that stand for an operation have `Z` zero and are the ones `encode` writes for it: an operation code's arm
accepts only when every field the operation does not use is zero. -/
theorem decodeFields_ok {op : BitVec 4} {z : BitVec 3} {u : Bool} {len : Len} {b a : Addr} {i : Instr}
    (h : decodeFields op z u len b a = .ok i) :
    z = 0#3 ∧ i.wellFormed = true ∧ encode i = commandWord op u len b a := by
  unfold decodeFields at h
  split at h
  case isFalse => exact nomatch h
  rename_i hz
  refine ⟨hz, ?_⟩
  repeat' split at h
  case isFalse => exact nomatch h
  all_goals
    rename_i hop
    obtain ⟨hnone, rfl⟩ := acceptUnless_ok.mp h
    simp only [unusedError_none, loadError_none, Decidable.imp_iff_not_or, Bool.not_eq_true] at hnone
    exact ⟨by simp [Instr.wellFormed, hnone], by simp [encode, hop, hnone]⟩

/-- Settles O3: what the fields of the word stand for encodes to those fields, and with `Z` zero they are the word. -/
theorem encodeOfDecode : Obligations.EncodeOfDecode := by
  intro cw i h
  obtain ⟨hz, hwf, henc⟩ := decodeFields_ok h
  exact ⟨hwf, henc.trans (commandWord_eq_iff.mpr ⟨rfl, hz, rfl, rfl, rfl, rfl⟩)⟩

/-- Decoding is the inverse of encoding on the well-formed operations. -/
theorem decode_ok_iff {cw : CommandWord} {i : Instr} : decode cw = .ok i ↔ i.wellFormed = true ∧ encode i = cw :=
  ⟨encodeOfDecode cw i, fun ⟨hwf, henc⟩ => henc ▸ decodeOfEncode i hwf⟩

/-- The same on the words' numbers. -/
theorem decode_ok_iff_toNat {cw : CommandWord} {i : Instr} :
    decode cw = .ok i ↔ i.wellFormed = true ∧ (encode i).toNat = cw.toNat := by
  rw [decode_ok_iff, BitVec.toNat_inj]

/-- Settles O5: a word that decodes to an operation is, as a number, the sum of that operation's fields, each below its
field's bound. -/
theorem decodedOperandsAreTheFields : Obligations.DecodedOperandsAreTheFields := by
  intro cw
  refine ⟨fun src len h => ?_, fun dst len h => ?_, fun src dst len h => ?_, fun dst len h => ?_, fun pc h => ?_,
    fun address h => ?_, fun h => ?_, fun unreadable len h => ?_⟩
  all_goals
    have hsum := (decode_ok_iff_toNat.mp h).2
    rw [encode_toNat] at hsum
    dsimp only at hsum
  case refine_8 =>
    have hu := Bool.toNat_lt unreadable
    omega
  all_goals omega

/-! ## The opcode table's masks -/

/-- A masked word is the word of given fields exactly when each of its masked fields is the given one. -/
theorem and_eq_commandWord_iff {cw mask : CommandWord} {op : BitVec 4} {u : Bool} {len : Len} {b a : Addr} :
    cw &&& mask = commandWord op u len b a ↔
      fieldOp cw &&& fieldOp mask = op ∧ fieldZ cw &&& fieldZ mask = 0#3 ∧ (fieldU cw && fieldU mask) = u ∧
        fieldLen cw &&& fieldLen mask = len ∧ fieldB cw &&& fieldB mask = b ∧ fieldA cw &&& fieldA mask = a := by
  rw [eq_comm, commandWord_eq_iff]
  simp only [fieldOp, fieldZ, fieldU, fieldLen, fieldB, fieldA, BitVec.extractLsb'_and, BitVec.getLsbD_and]

/-- A mask that covers a whole field keeps it. -/
theorem and_of_mask_all {w : Nat} {x mask : BitVec w} (h : mask = BitVec.allOnes w) : x &&& mask = x := by
  rw [h, BitVec.and_allOnes]

/-- A mask that covers none of a field clears it. -/
theorem and_of_mask_none {w : Nat} {x mask : BitVec w} (h : mask = 0#w) : x &&& mask = 0#w := by
  rw [h, BitVec.and_zero]

/-- The mask of an operation that uses `LEN` and `A` (R65). -/
theorem exists_commandWord_len_a_iff {op : BitVec 4} {cw : CommandWord} :
    (∃ a len, commandWord op false len 0#16 a = cw) ↔
      cw &&& 0xFF000000FFFF0000#64 = commandWord op false 0#24 0#16 0#16 := by
  have hu : fieldU 0xFF000000FFFF0000#64 = true := by decide
  simp (disch := decide) [commandWord_eq_iff, and_eq_commandWord_iff, hu, and_of_mask_all, and_of_mask_none]

/-- The mask of an operation that uses `LEN`, `B` and `A` (R65). -/
theorem exists_commandWord_len_b_a_iff {op : BitVec 4} {cw : CommandWord} :
    (∃ a b len, commandWord op false len b a = cw) ↔
      cw &&& 0xFF00000000000000#64 = commandWord op false 0#24 0#16 0#16 := by
  have hu : fieldU 0xFF00000000000000#64 = true := by decide
  simp (disch := decide) [commandWord_eq_iff, and_eq_commandWord_iff, hu, and_of_mask_all, and_of_mask_none]

/-- The mask of an operation that uses `A` only (R65). -/
theorem exists_commandWord_a_iff {op : BitVec 4} {cw : CommandWord} :
    (∃ a, commandWord op false 0#24 0#16 a = cw) ↔
      cw &&& 0xFFFFFFFFFFFF0000#64 = commandWord op false 0#24 0#16 0#16 := by
  have hu : fieldU 0xFFFFFFFFFFFF0000#64 = true := by decide
  simp (disch := decide) [commandWord_eq_iff, and_eq_commandWord_iff, hu, and_of_mask_all, and_of_mask_none]

/-- The mask of `LOAD`, which uses `U` and `LEN`, but not both at once (R65, R67). -/
theorem exists_commandWord_u_len_iff {op : BitVec 4} {cw : CommandWord} :
    (∃ u len, (Instr.load u len).wellFormed = true ∧ commandWord op u len 0#16 0#16 = cw) ↔
      cw &&& 0xFE000000FFFFFFFF#64 = commandWord op false 0#24 0#16 0#16 ∧
        (cw.toNat / 2 ^ 56 % 2 = 1 → cw.toNat / 2 ^ 32 % 2 ^ 24 = 0) := by
  have hmask : fieldU 0xFE000000FFFFFFFF#64 = false := by decide
  have hlen : (fieldLen cw).toNat = 0 ↔ fieldLen cw = 0#24 :=
    ⟨fun h => BitVec.eq_of_toNat_eq h, fun h => congrArg BitVec.toNat h⟩
  rw [← fieldU_toNat, ← fieldLen_toNat, Bool.toNat_eq_one, hlen, and_comm]
  cases hu : fieldU cw <;>
    simp (disch := decide) [commandWord_eq_iff, and_eq_commandWord_iff, wellFormed_load_iff, hmask, hu, and_of_mask_all,
      and_of_mask_none]

/-- Settles O6: each row's mask covers exactly the fields its operation does not choose, and its match
holds their values. -/
theorem tableMasksDecideDecoding : Obligations.TableMasksDecideDecoding := by
  intro cw
  simp only [decode_ok_iff, Instr.wellFormed, true_and, encode]
  refine ⟨exists_commandWord_len_a_iff, exists_commandWord_len_a_iff, exists_commandWord_len_b_a_iff,
    exists_commandWord_len_a_iff, exists_commandWord_a_iff, exists_commandWord_a_iff, ?_, exists_commandWord_u_len_iff⟩
  rw [and_of_mask_all (by decide)]
  exact eq_comm

/-! ## Words of the spec -/

/-- Settles O1: the decoder evaluated on each word. -/
theorem wordsOfTheSpecDecode : Obligations.WordsOfTheSpecDecode := by
  unfold Obligations.WordsOfTheSpecDecode
  decide

end Sys2Proof

namespace Sys2Proof.Machine

/-! ## The words that decode -/

/-- The encoder writes well-formed words only. -/
theorem wordWellFormed_encode {i : Instr} (hwf : i.wellFormed = true) : WordWellFormed (encode i).toNat := by
  rw [encode_toNat]
  cases i with
  | load unreadable len =>
    have hu := Bool.toNat_lt unreadable
    have hlen : unreadable.toNat = 1 → len.toNat = 0 := by
      rw [Bool.toNat_eq_one]
      intro h
      rw [wellFormed_load_iff.mp hwf h]
      rfl
    dsimp only [WordWellFormed]
    omega
  | _ =>
    dsimp only [WordWellFormed]
    omega

/-- The operation of a well-formed word, from its operation code and its fields. -/
theorem exists_decode_of_wordWellFormed {cw : CommandWord} (h : WordWellFormed cw.toNat) : ∃ i, decode cw = .ok i := by
  obtain ⟨hop, hz, hu, hlen, hb, ha, hload⟩ := h
  suffices hsum : ∃ i : Instr, i.wellFormed = true ∧ (encode i).toNat = cw.toNat from
    hsum.imp fun _ => decode_ok_iff_toNat.mpr
  have hops : cw.toNat / 2 ^ 60 = 1 ∨ cw.toNat / 2 ^ 60 = 2 ∨ cw.toNat / 2 ^ 60 = 3 ∨ cw.toNat / 2 ^ 60 = 4 ∨
    cw.toNat / 2 ^ 60 = 5 ∨ cw.toNat / 2 ^ 60 = 6 ∨ cw.toNat / 2 ^ 60 = 7 ∨ cw.toNat / 2 ^ 60 = 8 := by omega
  rcases hops with hop | hop | hop | hop | hop | hop | hop | hop
  · exact ⟨.rdblk (fieldA cw) (fieldLen cw), rfl, by simp only [encode_toNat, fieldA_toNat, fieldLen_toNat]; omega⟩
  · exact ⟨.wrblk (fieldA cw) (fieldLen cw), rfl, by simp only [encode_toNat, fieldA_toNat, fieldLen_toNat]; omega⟩
  · exact ⟨.cpblk (fieldA cw) (fieldB cw) (fieldLen cw), rfl, by
      simp only [encode_toNat, fieldA_toNat, fieldB_toNat, fieldLen_toNat]; omega⟩
  · exact ⟨.clblk (fieldA cw) (fieldLen cw), rfl, by simp only [encode_toNat, fieldA_toNat, fieldLen_toNat]; omega⟩
  · exact ⟨.fetch (fieldA cw), rfl, by simp only [encode_toNat, fieldA_toNat]; omega⟩
  · exact ⟨.push (fieldA cw), rfl, by simp only [encode_toNat, fieldA_toNat]; omega⟩
  · exact ⟨.pop, rfl, by simp only [encode_toNat]; omega⟩
  · refine ⟨.load (fieldU cw) (fieldLen cw), wellFormed_load_iff.mpr fun htrue => ?_, ?_⟩
    · have hone := fieldU_toNat cw
      rw [htrue, Bool.toNat_true] at hone
      exact BitVec.eq_of_toNat_eq ((fieldLen_toNat cw).trans (hload hop hone.symm))
    · simp only [encode_toNat, fieldU_toNat, fieldLen_toNat]
      omega

theorem takeRequest_of_pending {s : State} {r : Request} {rest : List Request} (hpend : s.pending = r :: rest) :
    takeRequest s = some (r.word, ({ s with pending := rest } : State).present r) := by
  rw [takeRequest, hpend]

/-- A word that decodes to nothing is refused, whatever the state (R72). -/
theorem step_of_decode_error {s : State} {r : Request} {rest : List Request} {why : DecodeError}
    (hpend : s.pending = r :: rest) (hdecode : decode r.word = .error why) : step s = .refused (.reservedWord why) := by
  simp only [step, takeRequest_of_pending hpend, hdecode]

/-- Settles O4: the words that decode are the encodings, which are the well-formed words; the decoder is total, so any
other word has its error; and two words that decode to one operation are both its encoding. -/
theorem reservedWordsAreRefused : Obligations.ReservedWordsAreRefused := by
  refine ⟨fun cw => ⟨exists_decode_of_wordWellFormed, fun ⟨i, h⟩ => ?_⟩, fun s r rest hpend hbad => ?_,
    fun cw cw' i h h' => ?_⟩
  · obtain ⟨hwf, rfl⟩ := decode_ok_iff.mp h
    exact wordWellFormed_encode hwf
  · cases hdecode : decode r.word with
    | error why => exact ⟨why, step_of_decode_error hpend hdecode⟩
    | ok i =>
      obtain ⟨hwf, henc⟩ := decode_ok_iff.mp hdecode
      exact absurd (henc ▸ wordWellFormed_encode hwf) hbad
  · exact (decode_ok_iff.mp h).2.symm.trans (decode_ok_iff.mp h').2

end Sys2Proof.Machine
end

