-- ==== Sys2Proof/Proofs/Transactions.lean ====
section
/-! The frame of a transaction (`30_encoding.md` R63, R68, R69): the bytes that accompany it and the one response it
returns. -/

namespace Sys2Proof.Machine

/-! ## The accompanying bytes -/

/-- In its phase an operation with another number of bytes than it states is refused (U6). -/
theorem exec_of_wrong_dataLength {i : Instr} {s : State} (hp : s.phase = requiredPhase i)
    (hd : s.data.length ≠ dataLength s.cfg i) : exec i s = .refused .wrongDataLength := by
  obtain ⟨body, hbody⟩ := exec_eq_whenAccepted i s
  rw [hbody, whenAccepted, if_neg (not_not_intro hp), if_pos hd]

/-- Bytes with an operation that takes none are refused (log 8). -/
theorem exec_of_stray_data {i : Instr} {s : State} (hp : s.phase = requiredPhase i) (hi : dataLength s.cfg i = 0)
    (hd : s.data ≠ []) : exec i s = .refused .wrongDataLength :=
  exec_of_wrong_dataLength hp (by rwa [hi, ne_eq, List.length_eq_zero_iff])

theorem dataLength_load_of_fits {cfg : Config} {len : Len} (h : cfg.entryOffset + len.toNat < cfg.size) :
    dataLength cfg (.load false len) = len.toNat := by
  simp [dataLength, loadFits, h]

theorem dataLength_load_of_not_fits {cfg : Config} {len : Len} (h : cfg.size ≤ cfg.entryOffset + len.toNat) :
    dataLength cfg (.load false len) = 0 := by
  simp [dataLength, loadFits, Nat.not_lt.mpr h]

/-- Settles O26: each clause is the admission test on the number of bytes its operation states. -/
theorem wrongDataLengthIsRefused : Obligations.WrongDataLengthIsRefused := by
  intro s src dst len
  refine ⟨fun hp hd => exec_of_wrong_dataLength hp hd, fun hp hd => ?_, fun hp hfit hd => ?_, fun hp hd => ?_,
    fun hp hd hout => ?_⟩
  · exact ⟨exec_of_stray_data hp rfl hd, exec_of_stray_data hp rfl hd, exec_of_stray_data hp rfl hd,
      exec_of_stray_data hp rfl hd, exec_of_stray_data hp rfl hd, exec_of_stray_data hp rfl hd⟩
  · exact exec_of_wrong_dataLength hp (by rwa [dataLength_load_of_fits hfit])
  · exact exec_of_stray_data hp rfl hd
  · exact exec_of_stray_data hp (dataLength_load_of_not_fits hout) hd

/-! ## The response -/

/-- The operation `i` ended with its response: the echo of its operation code, and bytes after `RDBLK` only, as many as
`VALUE` says (R69). -/
def Responded (i : Instr) (s t : State) : Prop :=
  ∃ u flag value bytes, t = State.respond u (fieldOp (encode i)) flag value bytes ∧ u.responses = s.responses ∧
    ((∃ src len, i = .rdblk src len) → bytes.length = value.toNat) ∧ ((∀ src len, i ≠ .rdblk src len) → bytes = [])

/-- The echo in a response is the `OP` of the operation's command word. -/
theorem fieldOp_encode (i : Instr) :
    fieldOp (encode i) = match i with
      | .rdblk _ _ => Opcode.rdblk
      | .wrblk _ _ => Opcode.wrblk
      | .cpblk _ _ _ => Opcode.cpblk
      | .clblk _ _ => Opcode.clblk
      | .fetch _ => Opcode.fetch
      | .push _ => Opcode.push
      | .pop => Opcode.pop
      | .load _ _ => Opcode.load := by
  cases i <;> exact (fields_commandWord ..).1

/-- A response without bytes, from any operation but `RDBLK`. -/
theorem responded_of_no_bytes {i : Instr} {s u : State} {op : BitVec 4} (hu : u.responses = s.responses)
    (hop : fieldOp (encode i) = op) (hi : ∀ src len, i ≠ .rdblk src len) (flag : Bool) (value : BitVec 24) :
    Responded i s (u.respond op flag value []) :=
  ⟨u, flag, value, [], by rw [hop], hu, fun ⟨src, len, h⟩ => absurd h (hi src len), fun _ => rfl⟩

/-- Every completed operation is its effect, which leaves the responses, and then its response. -/
theorem responded_of_exec {i : Instr} {s t : State} (h : exec i s = .next t) : Responded i s t := by
  have hop := fieldOp_encode i
  cases i with
  | rdblk src len =>
    obtain ⟨hp, hd, -⟩ := execRdblk_next h
    rw [exec_rdblk hp hd] at h
    split at h <;> cases h
    · exact ⟨s, true, len, _, by rw [hop], rfl, fun _ => Memory.length_readBlock ..,
        fun hne => absurd rfl (hne src len)⟩
    · exact ⟨s, false, 0#24, [], by rw [hop], rfl, fun _ => rfl, fun _ => rfl⟩
  | wrblk dst len =>
    obtain ⟨-, -, ⟨-, rfl⟩ | ⟨-, rfl⟩⟩ := execWrblk_next h <;> exact responded_of_no_bytes rfl hop nofun ..
  | cpblk src dst len =>
    obtain ⟨-, -, ⟨-, -, rfl⟩ | rfl⟩ := execCpblk_next h <;> exact responded_of_no_bytes rfl hop nofun ..
  | clblk dst len =>
    obtain ⟨-, -, ⟨-, rfl⟩ | rfl⟩ := execClblk_next h <;> exact responded_of_no_bytes rfl hop nofun ..
  | fetch pc =>
    obtain ⟨-, -, -, rfl⟩ := execFetch_next h
    exact responded_of_no_bytes rfl hop nofun ..
  | push address =>
    obtain ⟨-, -, ovf, s1, hinc, hres⟩ := execPush_next h
    obtain ⟨a, -, rfl, -⟩ := spInc_ok hinc
    obtain ⟨-, rfl⟩ | ⟨-, rfl⟩ := hres <;> exact responded_of_no_bytes rfl hop nofun ..
  | pop =>
    obtain ⟨-, -, s1, unf, s2, hread, hdec, rfl⟩ := execPop_next h
    obtain ⟨a, -, rfl, -⟩ := spDec_ok hdec
    obtain ⟨-, rfl⟩ | ⟨-, address, -, rfl⟩ := popRead_ok hread <;> exact responded_of_no_bytes rfl hop nofun ..
  | load unreadable len =>
    obtain ⟨-, ⟨-, -, -, rfl⟩ | ⟨-, -, rfl⟩⟩ := execLoad_next h <;> exact responded_of_no_bytes rfl hop nofun ..

/-- The fields of a response word (R69). -/
theorem rspWord_fields (op : BitVec 4) (flag : Bool) (value : BitVec 24) :
    (rspWord op flag value).toNat / 2 ^ 28 = op.toNat ∧ (rspWord op flag value).toNat / 2 ^ 25 % 8 = 0 ∧
      (rspWord op flag value).toNat % 2 ^ 24 = value.toNat := by
  have hflag := Bool.toNat_lt flag
  rw [rspWord_toNat]
  omega

/-- Settles O44: every operation ends in its response, whose word has the fields of R69. -/
theorem oneResponsePerTransaction : Obligations.OneResponsePerTransaction := by
  intro i s t h
  obtain ⟨u, flag, value, bytes, rfl, hu, hread, hother⟩ := responded_of_exec h
  obtain ⟨hop, hzero, hvalue⟩ := rspWord_fields (fieldOp (encode i)) flag value
  exact ⟨⟨rspWord (fieldOp (encode i)) flag value, bytes⟩, by rw [State.respond_responses, hu], rfl,
    hop.trans (fieldOp_toNat _), hzero, fun hi => (hread hi).trans hvalue.symm, hother⟩

end Sys2Proof.Machine
end

