-- ==== Sys2Proof/Proofs/BusOperations.lean ====
section
/-! The five bus operations (`40_bus_operations.md`): what each returns, what it leaves in the Address Space, and what
it does not touch. -/

namespace Sys2Proof.Machine

/-! ## Laws of the block writes and copies -/

/-- Byte `i` of a block write is the cell at `a + i` (R47). -/
theorem Memory.getElem?_eq_read_writeBlock (m : Memory) (a : Nat) {vs : List Byte} {i : Nat} (hi : i < vs.length) :
    vs[i]? = some (Memory.read (Memory.writeBlock m a vs) (a + i)) := by
  rw [Memory.read_writeBlock, dif_pos (by omega)]
  simp [hi]

/-- A block write changes no cell outside its range. -/
theorem Memory.read_writeBlock_outside (m : Memory) {a b : Nat} {vs : List Byte}
    (h : ¬(a ≤ b ∧ b < a + vs.length)) :
    Memory.read (Memory.writeBlock m a vs) b = Memory.read m b := by
  rw [Memory.read_writeBlock, dif_neg h]

/-- A block that was just written reads back as it was written. -/
theorem Memory.readBlock_writeBlock (m : Memory) (a : Nat) (vs : List Byte) :
    Memory.readBlock (Memory.writeBlock m a vs) a vs.length = vs := by
  refine List.ext_getElem? fun i => ?_
  rw [Memory.getElem?_readBlock]
  by_cases hi : i < vs.length
  · rw [if_pos hi, Memory.getElem?_eq_read_writeBlock m a hi]
  · rw [if_neg hi, List.getElem?_eq_none (Nat.not_lt.mp hi)]

/-- Step `n` of the copy loop, cell by cell (R80). -/
theorem Memory.read_copyBlock_succ (m : Memory) (src dst n a : Nat) :
    Memory.read (Memory.copyBlock m src dst (n + 1)) a =
      if a = dst + n then Memory.read (Memory.copyBlock m src dst n) (src + n)
      else Memory.read (Memory.copyBlock m src dst n) a := by
  rw [Memory.copyBlock_succ, Memory.read_write]

/-- A copy that does not start above its source is a move: no step writes a source cell that a later one reads (R81). -/
theorem Memory.read_copyBlock_of_le {m : Memory} {src dst n i : Nat} (h : dst ≤ src) (hi : i < n) :
    Memory.read (Memory.copyBlock m src dst n) (dst + i) = Memory.read m (src + i) := by
  induction n with
  | zero => omega
  | succ n ih =>
    rw [Memory.read_copyBlock_succ]
    by_cases hin : i = n
    · rw [if_pos (by omega), hin, Memory.read_copyBlock_outside _ _ _ _ _ (by omega)]
    · rw [if_neg (by omega), ih (by omega)]

/-- A copy that starts above its source repeats the cells between the two starts: past them, a step reads what the loop
itself wrote one period before (R81). -/
theorem Memory.read_copyBlock_of_lt {m : Memory} {src dst n i : Nat} (h : src < dst) (hi : i < n) :
    Memory.read (Memory.copyBlock m src dst n) (dst + i) = Memory.read m (src + i % (dst - src)) := by
  induction n generalizing i with
  | zero => omega
  | succ n ih =>
    rw [Memory.read_copyBlock_succ]
    by_cases hin : i = n
    · rw [if_pos (by omega), hin]
      by_cases hn : n < dst - src
      · rw [Memory.read_copyBlock_outside _ _ _ _ _ (by omega), Nat.mod_eq_of_lt hn]
      · have hback : src + n = dst + (n - (dst - src)) := by omega
        rw [hback, ih (by omega), Nat.mod_eq_sub_mod (Nat.not_lt.mp hn)]
    · rw [if_neg (by omega), ih (by omega)]

/-- A new Address Space and a response change nothing else of what R20 lists. -/
theorem onlyMemoryAndResponse_setMem_respond (s : State) (m : Memory) (op : BitVec 4) (flag : Bool) (value : BitVec 24)
    (bytes : List Byte) : OnlyMemoryAndResponse s ((s.setMem m).respond op flag value bytes) :=
  ⟨⟨rfl, rfl, rfl, rfl⟩, ⟨rfl, rfl⟩, ⟨rfl, rfl, rfl, rfl⟩, rfl⟩

/-! ## Reads and writes -/

/-- Settles O12: a response is all that either branch adds; on a valid range it carries the block. -/
theorem rdblkReturnsTheBlock : Obligations.RdblkReturnsTheBlock := by
  intro src len s hp hd
  refine ⟨encode_eq_ofNat (encode_toNat _), ?_⟩
  by_cases hin : src.toNat + len.toNat ≤ s.cfg.size
  · refine ⟨_, (exec_rdblk hp hd).trans (if_pos hin), rfl, onlyMemoryAndResponse_respond .., fun _ => ?_,
      fun hout => absurd hin (Nat.not_le.mpr hout)⟩
    refine ⟨_, Memory.length_readBlock .., fun i hi => ?_, answered_respond rfl (rspWord_eq_ofNat rfl) _⟩
    rw [Memory.getElem?_readBlock, if_pos hi]
  · exact ⟨_, (exec_rdblk hp hd).trans (if_neg hin), rfl, onlyMemoryAndResponse_respond .., fun h => absurd h hin,
      fun _ => answered_respond rfl (by decide) []⟩

/-- Settles O13: the valid branch only writes the block, the other only raises the Fault Signal; both answer alike. -/
theorem wrblkWritesOrSignals : Obligations.WrblkWritesOrSignals := by
  intro dst len s hp hd
  refine ⟨encode_eq_ofNat (encode_toNat _), ?_⟩
  by_cases hin : dst.toNat + len.toNat ≤ s.cfg.size
  · refine ⟨_, (exec_wrblk hp hd).trans (if_pos hin), answered_respond rfl (by decide) [], ⟨rfl, rfl, rfl, rfl⟩,
      ⟨rfl, rfl, rfl, rfl⟩, rfl, fun _ => ⟨fun i hi => ?_, fun b hb => ?_, rfl, rfl⟩,
      fun hout => absurd hin (Nat.not_le.mpr hout)⟩
    · exact Memory.getElem?_eq_read_writeBlock _ _ (by omega)
    · exact Memory.read_writeBlock_outside _ (by rwa [hd])
  · exact ⟨_, (exec_wrblk hp hd).trans (if_neg hin), answered_respond rfl (by decide) [], ⟨rfl, rfl, rfl, rfl⟩,
      ⟨rfl, rfl, rfl, rfl⟩, rfl, fun h => absurd h hin, fun _ => ⟨rfl, raiseMemOob_calls s, rfl⟩⟩

/-- Settles O14: the read sees the memory the write left, in which the block reads back as written. -/
theorem writeThenReadReturnsTheBytes : Obligations.WriteThenReadReturnsTheBytes := by
  intro addr len s hp hd hin
  have hwrite := (exec_wrblk hp hd).trans (if_pos hin)
  have hbytes : Memory.readBlock (Memory.writeBlock s.mem addr.toNat s.data) addr.toNat len.toNat = s.data := by
    rw [← hd, Memory.readBlock_writeBlock]
  refine ⟨_, _, hwrite, (exec_rdblk ?_ rfl).trans (if_pos ?_), ?_⟩
  · exact hp
  · exact hin
  · rw [State.respond_mem, State.setMem_mem, hbytes]
    exact answered_respond rfl (rspWord_eq_ofNat rfl) _

/-- Settles O15: both conditions say that the range is not valid, so this is the failing half of O12 and of O13. -/
theorem outOfBoundsReadAndWrite : Obligations.OutOfBoundsReadAndWrite := by
  intro addr len s hp hrange
  have hout : s.cfg.size < addr.toNat + len.toNat := by omega
  refine ⟨fun hd => ?_, fun hd => ?_⟩
  · obtain ⟨-, t, hexec, -, -, -, hfail⟩ := rdblkReturnsTheBlock addr len s hp hd
    exact ⟨t, hexec, hfail hout⟩
  · obtain ⟨-, t, hexec, -, -, -, -, -, hfail⟩ := wrblkWritesOrSignals addr len s hp hd
    obtain ⟨hmem, -, hsignal⟩ := hfail hout
    exact ⟨t, hexec, fun a => by rw [hmem], by simp [hsignal]⟩

/-! ## Copies and clears -/

/-- Settles O16: the cell after `i` steps is read from the memory that the loop of `i` steps leaves. -/
theorem cpblkRunsTheForwardLoop : Obligations.CpblkRunsTheForwardLoop := by
  intro src dst len s hp hd
  refine ⟨encode_eq_ofNat (encode_toNat _), ?_⟩
  by_cases hin : src.toNat + len.toNat ≤ s.cfg.size ∧ dst.toNat + len.toNat ≤ s.cfg.size
  · refine ⟨_, (exec_cpblk hp hd).trans (if_pos hin), onlyMemoryAndResponse_setMem_respond ..,
      fun _ => ⟨answered_respond rfl (by decide) [], fun b hb => Memory.read_copyBlock_outside _ _ _ _ _ hb, ?_⟩,
      fun hout => by omega⟩
    exact ⟨fun i a => Memory.read (Memory.copyBlock s.mem src.toNat dst.toNat i) a, fun _ => rfl, fun _ => rfl,
      fun i _ a => Memory.read_copyBlock_succ ..⟩
  · exact ⟨_, (exec_cpblk hp hd).trans (if_neg hin), onlyMemoryAndResponse_respond .., fun h => absurd h hin,
      fun _ => ⟨answered_respond rfl (by decide) [], rfl⟩⟩

/-- Settles O17: a copy moves or repeats by where it starts; without overlap the repeated part is the whole
source. -/
theorem copyMovesOrReplicates : Obligations.CopyMovesOrReplicates := by
  intro src dst len s hp hd hsrc hdst
  refine ⟨_, (exec_cpblk hp hd).trans (if_pos ⟨hsrc, hdst⟩),
    fun b hb => Memory.read_copyBlock_outside _ _ _ _ _ hb, fun hmove i hi => ?_,
    fun ⟨hlt, _⟩ i hi => Memory.read_copyBlock_of_lt hlt hi⟩
  obtain hle | hapart := hmove
  · exact Memory.read_copyBlock_of_le hle hi
  · have hfirst : i % (dst.toNat - src.toNat) = i := Nat.mod_eq_of_lt (by omega)
    exact (Memory.read_copyBlock_of_lt (by omega) hi).trans (by rw [hfirst])

/-- Settles O18: the clear writes zero to its own range only. -/
theorem clblkZeroesTheRange : Obligations.ClblkZeroesTheRange := by
  intro dst len s hp hd
  refine ⟨encode_eq_ofNat (encode_toNat _), ?_⟩
  by_cases hin : dst.toNat + len.toNat ≤ s.cfg.size
  · refine ⟨_, (exec_clblk hp hd).trans (if_pos hin), onlyMemoryAndResponse_setMem_respond ..,
      fun _ => ⟨answered_respond rfl (by decide) [], fun b hb => ?_, fun i hi => ?_⟩,
      fun hout => absurd hin (Nat.not_le.mpr hout)⟩
    · exact (Memory.read_clearBlock ..).trans (if_neg hb)
    · exact (Memory.read_clearBlock ..).trans (if_pos (by omega))
  · exact ⟨_, (exec_clblk hp hd).trans (if_neg hin), onlyMemoryAndResponse_respond .., fun h => absurd h hin,
      fun _ => ⟨answered_respond rfl (by decide) [], rfl⟩⟩

/-! ## Instruction fetch -/

/-- Settles O19: the response carries the big-endian word, zero-extended. -/
theorem fetchReturnsTheBigEndianWord : Obligations.FetchReturnsTheBigEndianWord := by
  intro pc s hp hd hin
  refine ⟨encode_eq_ofNat (encode_toNat _), _, (exec_fetch hp hd).trans (if_pos hin), rfl,
    onlyMemoryAndResponse_respond .., answered_respond rfl (rspWord_eq_ofNat ?_) []⟩
  rw [valueOfWord_toNat, Memory.fetchWord_toNat, Nat.add_assoc 0x50000000]
  rfl

/-- Settles O20: the range test of the fetch fails. -/
theorem fetchOutOfRangeFaults : Obligations.FetchOutOfRangeFaults := fun _ _ hp hd hout =>
  (exec_fetch hp hd).trans (if_neg (Nat.not_lt.mpr hout))

end Sys2Proof.Machine
end

