-- ==== Sys2Proof/Proofs/RegionLoader.lean ====
section
/-! The region loader (`41_region_loader.md`): where `LOAD` places the two images, when it rejects the external one, and
what a failed load leaves. -/

namespace Sys2Proof.Machine

/-! ## The images -/

/-- The boot image lies over the store as it was (R90). -/
theorem read_loadBoot (s : State) (a : Nat) :
    Memory.read (loadBoot s) a = (s.cfg.bootImage[a]?).getD (Memory.read s.mem a) :=
  Memory.read_writeBlock_zero ..

/-- The two outcomes of the fit test exclude each other and leave no third (R88, R91). -/
theorem not_readable_and_fits_iff {unreadable : Bool} {n size : Nat} :
    ¬(unreadable = false ∧ n < size) ↔ unreadable = true ∨ size ≤ n := by
  cases unreadable <;> simp

/-- Settles O22: the fit test chooses between the two branches; both write the boot image, and one writes the external
image over it. -/
theorem loadPlacesTheImages : Obligations.LoadPlacesTheImages := by
  intro unreadable len s hp hd
  refine ⟨encode_eq_ofNat (encode_toNat _), ?_⟩
  by_cases hfit : unreadable = false ∧ s.cfg.entryOffset + len.toNat < s.cfg.size
  · have hlen : s.data.length = len.toNat := hd.trans (if_pos hfit)
    refine ⟨_, (exec_load hp hd).trans (if_pos hfit), rfl, ⟨rfl, rfl, rfl, rfl⟩, ⟨rfl, rfl⟩, ⟨rfl, rfl, rfl, rfl⟩,
      fun _ => ⟨answered_respond rfl (rspWord_eq_ofNat rfl) [], fun i hi => ?_, fun a ha => ?_⟩,
      fun hfail => absurd hfit (not_readable_and_fits_iff.mpr hfail)⟩
    · exact Memory.getElem?_eq_read_writeBlock _ _ (by omega)
    · exact (Memory.read_writeBlock_outside _ (by rwa [hlen])).trans (read_loadBoot s a)
  · exact ⟨_, (exec_load hp hd).trans (if_neg hfit), rfl, ⟨rfl, rfl, rfl, rfl⟩, ⟨rfl, rfl⟩, ⟨rfl, rfl, rfl, rfl⟩,
      fun h => absurd h hfit, fun _ => ⟨answered_respond rfl (by decide) [], read_loadBoot s⟩⟩

/-! ## The fit test -/

/-- `ENTRY_OFFSET` is a 16-bit address (R12). -/
theorem toNat_entryOffset (cfg : Config) : (BitVec.ofNat 16 cfg.entryOffset).toNat = cfg.entryOffset := by
  have hentry := cfg.entryOffset_lt
  have hsize := cfg.size_le
  rw [BitVec.toNat_ofNat]
  omega

/-- An image that is unreadable or does not fit comes with no bytes (R67), and the boot image is all that is written. -/
theorem exec_load_of_not_fits {unreadable : Bool} {len : Len} {s : State} (hp : s.phase = .init) (hd : s.data = [])
    (hfail : unreadable = true ∨ s.cfg.size ≤ s.cfg.entryOffset + len.toNat) :
    ∃ t, exec (.load unreadable len) s = .next t ∧ t.phase = .run ∧ Answered s t 0x80000000#32 [] ∧
      ∀ a, Memory.read t.mem a = (s.cfg.bootImage[a]?).getD (Memory.read s.mem a) := by
  have hnofit := not_readable_and_fits_iff.mpr hfail
  obtain ⟨-, t, hexec, hrun, -, -, -, -, hboot⟩ :=
    loadPlacesTheImages unreadable len s hp (by rw [if_neg hnofit, hd, List.length_nil])
  obtain ⟨hanswer, hmem⟩ := hboot hfail
  exact ⟨t, hexec, hrun, hanswer, hmem⟩

/-- Settles O23: at the top the range is valid and the fit test fails; below it the image of O22 ends before the last
cell, and an empty image covers no cell. -/
theorem loadBoundIsStrict : Obligations.LoadBoundIsStrict := by
  intro len s hp
  refine ⟨fun htop hd => ⟨?_, ?_⟩, fun hfit hd => ?_, s.cfg.entryOffset_lt⟩
  · obtain ⟨t, hexec, -, hanswer, -⟩ := exec_load_of_not_fits (unreadable := false) hp hd (.inr htop.ge)
    exact ⟨t, hexec, hanswer⟩
  · rw [valid_iff, toNat_entryOffset]
    exact htop.le
  · obtain ⟨-, t, hexec, -, -, -, -, hload, -⟩ :=
      loadPlacesTheImages false len s hp (hd.trans (if_pos ⟨rfl, hfit⟩).symm)
    obtain ⟨hanswer, -, houtside⟩ := hload ⟨rfl, hfit⟩
    refine ⟨t, hexec, hanswer, houtside _ (by omega), fun hempty a => houtside a ?_⟩
    rw [hempty, BitVec.toNat_ofNat]
    omega

/-! ## The failed load -/

/-- Settles O24: the boot image over a zero-filled store. -/
theorem failedLoadLeavesTheBootImage : Obligations.FailedLoadLeavesTheBootImage := by
  intro unreadable len s hp hd hzero hfail
  obtain ⟨t, hexec, hrun, hanswer, hmem⟩ := exec_load_of_not_fits hp hd hfail
  refine ⟨t, hexec, hrun, hanswer, fun i hi => ?_, fun a ha => ?_⟩
  · rw [hmem, List.getElem?_eq_getElem hi, Option.getD_some]
  · rw [hmem, List.getElem?_eq_none ha, Option.getD_none, hzero]

end Sys2Proof.Machine
end

