-- ==== Sys2Proof/Proofs/StackPointer.lean ====
section
/-! The stack pointer (`42_call_stack.md` section 2): the reference processor's two requests case by case, the contract of
R98 and R99 as the model checks it, and the record of standing increments that every step keeps. -/

namespace Sys2Proof.Machine

/-! ## The reference requests, case by case (R100, R101) -/

section
variable {cfg : Config} {v : Addr}

theorem spLegal_eq_false_iff : spLegal cfg v = false ↔ v ≠ cfg.spEmpty ∧ cfg.capacity ≤ v.toNat := by
  rw [← Bool.not_eq_true, spLegal_iff, not_or, Nat.not_lt]

theorem refInc_of_empty (h : v = cfg.spEmpty) : refInc cfg v = .ok ⟨false, 0x0000#16⟩ := if_pos h

theorem refInc_of_below (h : v.toNat + 1 < cfg.capacity) : refInc cfg v = .ok ⟨false, v + 1#16⟩ := by
  rw [refInc, if_neg (ne_spEmpty_of_lt (by omega)), if_pos h]

theorem refInc_of_top (h : v.toNat + 1 = cfg.capacity) : refInc cfg v = .ok ⟨true, v⟩ := by
  rw [refInc, if_neg (ne_spEmpty_of_lt (by omega)), if_neg (by omega), if_pos h]

theorem refInc_of_illegal (h : spLegal cfg v = false) : refInc cfg v = .error .spIllegal := by
  obtain ⟨hne, hout⟩ := spLegal_eq_false_iff.mp h
  rw [refInc, if_neg hne, if_neg (by omega), if_neg (by omega)]

theorem refDec_of_empty (h : v = cfg.spEmpty) : refDec cfg v = .ok ⟨true, v⟩ := if_pos h

theorem refDec_of_zero (h : v = 0x0000#16) : refDec cfg v = .ok ⟨false, cfg.spEmpty⟩ := by
  have h0 : v.toNat = 0 := congrArg BitVec.toNat h
  have hcap := cfg.one_le_capacity
  rw [refDec, if_neg (ne_spEmpty_of_lt (by omega)), if_pos h0]

theorem refDec_of_above (hne : v ≠ 0x0000#16) (h : v.toNat < cfg.capacity) : refDec cfg v = .ok ⟨false, v - 1#16⟩ := by
  have hpos : v.toNat ≠ 0 := fun h0 => hne (BitVec.eq_of_toNat_eq h0)
  rw [refDec, if_neg (ne_spEmpty_of_lt h), if_neg hpos, if_pos h]

theorem refDec_of_illegal (h : spLegal cfg v = false) : refDec cfg v = .error .spIllegal := by
  obtain ⟨hne, hout⟩ := spLegal_eq_false_iff.mp h
  have hcap := cfg.one_le_capacity
  rw [refDec, if_neg hne, if_neg (by omega), if_neg (by omega)]

end

/-! ## The answers to the two requests -/

section
variable {s t : State} {a : SpAnswer}

theorem spInc_of_incAnswer (h : incAnswer s = .ok a) : spInc s = .ok (a.bit, s.incremented a) := by rw [spInc, h]

theorem spDec_of_decAnswer (h : decAnswer s = .ok a) : spDec s = .ok (a.bit, s.decremented a) := by rw [spDec, h]

/-- An increment that succeeds took the processor's answer. -/
theorem incAnswer_of_spInc {ovf : Bool} (h : spInc s = .ok (ovf, t)) :
    ∃ a, incAnswer s = .ok a ∧ a.bit = ovf ∧ t = s.incremented a := by
  unfold spInc at h
  split at h <;> cases h
  exact ⟨_, ‹_›, rfl, rfl⟩

/-- A decrement that succeeds took the processor's answer. -/
theorem decAnswer_of_spDec {unf : Bool} (h : spDec s = .ok (unf, t)) :
    ∃ a, decAnswer s = .ok a ∧ a.bit = unf ∧ t = s.decremented a := by
  unfold spDec at h
  split at h <;> cases h
  exact ⟨_, ‹_›, rfl, rfl⟩

theorem incAnswer_reference (hp : s.ReferenceProcessor) : incAnswer s = refInc s.cfg s.sp := by
  simp only [incAnswer, hp]

theorem decAnswer_reference (hp : s.ReferenceProcessor) : decAnswer s = refDec s.cfg s.sp := by
  simp only [decAnswer, hp]

/-- From an illegal pointer no processor's increment is in contract (R100, U2). -/
theorem incAnswer_of_illegal (h : spLegal s.cfg s.sp = false) : incAnswer s = .error .spIllegal := by
  cases hp : s.cfg.processor with
  | reference => rw [incAnswer_reference hp, refInc_of_illegal h]
  | other => simp [incAnswer, hp, otherAnswer, h]

/-- From an illegal pointer no processor's decrement is in contract (R101, U2). -/
theorem decAnswer_of_illegal (h : spLegal s.cfg s.sp = false) : decAnswer s = .error .spIllegal := by
  cases hp : s.cfg.processor with
  | reference => rw [decAnswer_reference hp, refDec_of_illegal h]
  | other => simp [decAnswer, hp, otherAnswer, h]

theorem spInc_of_refInc (hp : s.ReferenceProcessor) (h : refInc s.cfg s.sp = .ok a) :
    spInc s = .ok (a.bit, s.incremented a) :=
  spInc_of_incAnswer ((incAnswer_reference hp).trans h)

theorem spDec_of_refDec (hp : s.ReferenceProcessor) (h : refDec s.cfg s.sp = .ok a) :
    spDec s = .ok (a.bit, s.decremented a) :=
  spDec_of_decAnswer ((decAnswer_reference hp).trans h)

end

/-- Settles O27: each clause is the branch of the reference increment that its pointer takes; modulo `2^16` the sentinel
`0xFFFF` is the predecessor of 0. -/
theorem referenceSpInc : Obligations.ReferenceSpInc := by
  intro s hp
  have hcap := s.cfg.one_le_capacity
  have below (h : s.sp.toNat + 1 < s.cfg.capacity) : ∃ t, spInc s = .ok (false, t) ∧ t.sp = s.sp + 1#16 :=
    ⟨_, spInc_of_refInc hp (refInc_of_below h), rfl⟩
  have empty (he : s.sp = s.cfg.spEmpty) : ∃ t, spInc s = .ok (false, t) ∧ t.sp = 0x0000#16 :=
    ⟨_, spInc_of_refInc hp (refInc_of_empty he), rfl⟩
  refine ⟨empty, fun _ hlt => below (by omega), fun htop => ?_, fun hne hout => ?_, fun hsentinel hl hdepth => ?_⟩
  · exact ⟨_, spInc_of_refInc hp (refInc_of_top (by omega)), rfl⟩
  · rw [spInc, incAnswer_of_illegal (spLegal_eq_false_iff.mpr ⟨hne, hout⟩)]
  · obtain he | hslot := spLegal_iff.mp hl
    · obtain ⟨t, hinc, hsp⟩ := empty he
      exact ⟨t, hinc, by rw [hsp, he, hsentinel]; rfl⟩
    · exact below (spDepth_of_lt hslot ▸ hdepth)

/-- Settles O28: each clause is the branch of the reference decrement that its pointer takes; modulo `2^16` the sentinel
`0xFFFF` is the predecessor of 0. -/
theorem referenceSpDec : Obligations.ReferenceSpDec := by
  intro s hp
  have zero (h0 : s.sp = 0x0000#16) : ∃ t, spDec s = .ok (false, t) ∧ t.sp = s.cfg.spEmpty :=
    ⟨_, spDec_of_refDec hp (refDec_of_zero h0), rfl⟩
  have above (hne : s.sp ≠ 0x0000#16) (h : s.sp.toNat < s.cfg.capacity) :
      ∃ t, spDec s = .ok (false, t) ∧ t.sp = s.sp - 1#16 :=
    ⟨_, spDec_of_refDec hp (refDec_of_above hne h), rfl⟩
  refine ⟨fun he => ?_, zero, above, fun hne hout => ?_, fun hsentinel hl hdepth => ?_⟩
  · exact ⟨_, spDec_of_refDec hp (refDec_of_empty he), rfl⟩
  · rw [spDec, decAnswer_of_illegal (spLegal_eq_false_iff.mpr ⟨hne, hout⟩)]
  · obtain he | hslot := spLegal_iff.mp hl
    · rw [he, spDepth_spEmpty] at hdepth
      exact absurd hdepth (Nat.lt_irrefl 0)
    · by_cases h0 : s.sp = 0x0000#16
      · obtain ⟨t, hdec, hsp⟩ := zero h0
        exact ⟨t, hdec, by rw [hsp, h0, hsentinel]; rfl⟩
      · exact above h0 hslot

/-! ## Pointers by depth -/

/-- A legal pointer is the one of its depth (R26). -/
theorem pointerAt_spDepth {cfg : Config} {v : Addr} (hl : spLegal cfg v = true) :
    pointerAt cfg (spDepth cfg v) = v := by
  obtain rfl | hslot := spLegal_iff.mp hl
  · rw [spDepth_spEmpty, pointerAt]
  · rw [spDepth_of_lt hslot, pointerAt, BitVec.ofNat_toNat, BitVec.setWidth_eq]

theorem spDepth_le_capacity {cfg : Config} {v : Addr} (hl : spLegal cfg v = true) : spDepth cfg v ≤ cfg.capacity := by
  obtain rfl | hslot := spLegal_iff.mp hl
  · rw [spDepth_spEmpty]
    exact Nat.zero_le _
  · rw [spDepth_of_lt hslot]
    exact hslot

/-- The reference decrement lowers the depth by one, or leaves the empty stack. -/
theorem spDepth_of_refDec {cfg : Config} {sp v : Addr} {unf : Bool} (h : refDec cfg sp = .ok ⟨unf, v⟩) :
    spDepth cfg v = spDepth cfg sp - 1 := by
  obtain ⟨-, rfl, rfl⟩ | ⟨-, hslot, -, hdepth⟩ := refDec_ok h
  · rw [spDepth_spEmpty]
  · rw [hdepth, spDepth_of_lt hslot, Nat.add_sub_cancel]

theorem exists_refInc {cfg : Config} {v : Addr} (hl : spLegal cfg v = true) : ∃ a, refInc cfg v = .ok a := by
  obtain ⟨-, w, hinc, -⟩ | ⟨-, hinc⟩ := refInc_of_legal hl <;> exact ⟨_, hinc⟩

theorem exists_refDec {cfg : Config} {v : Addr} (hl : spLegal cfg v = true) :
    ∃ a, refDec cfg v = .ok a ∧ spLegal cfg a.sp = true := by
  obtain ⟨-, hdec⟩ | ⟨-, w, hdec, -, hlegal⟩ := refDec_of_legal hl
  · exact ⟨_, hdec, hl⟩
  · exact ⟨_, hdec, hlegal⟩

theorem bit_of_refDec_empty {cfg : Config} {v : Addr} {a : SpAnswer} (he : v = cfg.spEmpty)
    (h : refDec cfg v = .ok a) : a.bit = true := by
  cases (refDec_of_empty he).symm.trans h
  rfl

/-- The reference decrement undoes the reference increment (R99 (d)). -/
theorem refDec_of_refInc {cfg : Config} {sp v : Addr} (hl : spLegal cfg sp = true)
    (h : refInc cfg sp = .ok ⟨false, v⟩) : refDec cfg v = .ok ⟨false, sp⟩ := by
  obtain ⟨-, hslot, htop, -⟩ | ⟨hbit, -⟩ := refInc_ok h
  · obtain ⟨he, -⟩ | ⟨-, w, hdec, hdepth, hlw⟩ := refDec_of_legal (spLegal_iff.mpr (.inr hslot))
    · exact absurd he (ne_spEmpty_of_lt hslot)
    · have hw : w = sp := by rw [← pointerAt_spDepth hlw, hdepth, htop, pointerAt_spDepth hl]
      rw [hdec, hw]
  · exact nomatch hbit

/-! ## The record of standing increments -/

/-- The newest increment does not change where the standing ones began. -/
theorem trailBase_cons (v sp : Addr) (trail : List Addr) : trailBase v (sp :: trail) = trailBase sp trail := by
  simp [trailBase, List.getLast?_cons]

theorem length_referenceTrail (cfg : Config) (depth : Nat) : (referenceTrail cfg depth).length = depth := by
  induction depth with
  | zero => rfl
  | succ depth ih => rw [referenceTrail, List.length_cons, ih]

theorem tail_referenceTrail (cfg : Config) (depth : Nat) :
    (referenceTrail cfg depth).tail = referenceTrail cfg (depth - 1) := by
  cases depth <;> rfl

/-! ## The contract -/

section
variable {s t : State} {a : SpAnswer}

/-- R98 for an answer is what the model checks of it. -/
theorem incContract_iff :
    s.IncContract a ↔ incInRange s.cfg a = true ∧ incKeepsContract s.cfg s.sp s.spTrail a = true := by
  rw [incInRange_iff, incKeepsContract_iff]
  constructor
  · rintro ⟨hslot, hcount, hlegal, hkept⟩
    exact ⟨⟨hslot, fun _ => hlegal⟩, hkept, hcount⟩
  · rintro ⟨hrange, hkept, hcount⟩
    exact ⟨hrange.1, hcount, spLegal_of_incInRange (incInRange_iff.mpr hrange), hkept⟩

/-- R99 for an answer is what the model checks of it. -/
theorem decContract_iff :
    s.DecContract a ↔ spLegal s.cfg a.sp = true ∧ decKeepsContract s.cfg s.sp s.spTrail a = true := by
  rw [decKeepsContract_iff]
  exact and_left_comm

/-- The reference increment meets R98 on the trail of its depth. -/
theorem incContract_of_refInc (hl : spLegal s.cfg s.sp = true)
    (htrail : s.spTrail = referenceTrail s.cfg (spDepth s.cfg s.sp)) (h : refInc s.cfg s.sp = .ok a) :
    s.IncContract a := by
  have hlen : s.spTrail.length = spDepth s.cfg s.sp := by rw [htrail, length_referenceTrail]
  obtain ⟨hbit, hslot, -, hlt⟩ | ⟨hbit, hsp, -, heq⟩ := refInc_ok h
  · refine ⟨fun _ => hslot, fun _ => ?_, spLegal_iff.mpr (.inr hslot), by simp [hbit]⟩
    simp [hbit, hlen, hlt]
  · refine ⟨by simp [hbit], fun _ => ?_, by rwa [hsp], fun _ => hsp⟩
    simp [hbit, hlen, heq]

/-- The reference decrement meets R99 on the trail of its depth. -/
theorem decContract_of_refDec (htrail : s.spTrail = referenceTrail s.cfg (spDepth s.cfg s.sp))
    (h : refDec s.cfg s.sp = .ok a) : s.DecContract a := by
  obtain ⟨hbit, he, hsp⟩ | ⟨hbit, hslot, hlegal, hdepth⟩ := refDec_ok h
  · refine ⟨fun _ => hbit, spLegal_iff.mpr (.inl hsp), fun earlier rest hcons => ?_⟩
    rw [htrail, he, spDepth_spEmpty] at hcons
    exact nomatch hcons
  · refine ⟨fun he => absurd he (ne_spEmpty_of_lt hslot), hlegal, fun earlier rest hcons => ⟨hbit, ?_⟩⟩
    rw [htrail, spDepth_of_lt hslot] at hcons
    cases hcons
    rw [← hdepth, pointerAt_spDepth hlegal]

/-- Settles O29: from a legal pointer each request has an answer, and it meets the contract on the trail of the depth. -/
theorem referenceMeetsTheContract : Obligations.ReferenceMeetsTheContract := by
  intro s hp hl
  refine ⟨?_, ?_, fun htrail => ?_⟩
  · obtain ⟨hlt, v, hinc, htop⟩ | ⟨-, hinc⟩ := refInc_of_legal hl
    · have hslot : v.toNat < s.cfg.capacity := htop ▸ hlt
      exact ⟨_, _, spInc_of_refInc hp hinc, spLegal_iff.mpr (.inr hslot),
        fun _ => ⟨hslot, _, spDec_of_refDec (s := s.incremented ⟨false, v⟩) hp (refDec_of_refInc hl hinc), rfl⟩, nofun⟩
    · exact ⟨_, _, spInc_of_refInc hp hinc, hl, nofun, fun _ => rfl⟩
  · obtain ⟨down, hdec, hlegal⟩ := exists_refDec hl
    exact ⟨_, _, spDec_of_refDec hp hdec, hlegal, fun he => bit_of_refDec_empty he hdec⟩
  · obtain ⟨up, hinc⟩ := exists_refInc hl
    obtain ⟨down, hdec, -⟩ := exists_refDec hl
    exact ⟨up, down, hinc, hdec, incContract_of_refInc hl htrail hinc, decContract_of_refDec htrail hdec⟩

/-- Another processor's increment is its reply, from a legal pointer and within R98. -/
theorem incAnswer_other_iff (ho : s.cfg.processor = .other) :
    incAnswer s = .ok a ↔ a = s.spReply ∧ spLegal s.cfg s.sp = true ∧ s.IncContract a := by
  simp only [incAnswer, ho]
  constructor
  · intro h
    obtain ⟨rfl, hl, hrange, hkeeps⟩ := otherAnswer_ok h
    exact ⟨rfl, hl, incContract_iff.mpr ⟨hrange, hkeeps⟩⟩
  · rintro ⟨rfl, hl, hc⟩
    obtain ⟨hrange, hkeeps⟩ := incContract_iff.mp hc
    simp [otherAnswer, hl, hrange, hkeeps]

/-- Another processor's decrement is its reply, from a legal pointer and within R99. -/
theorem decAnswer_other_iff (ho : s.cfg.processor = .other) :
    decAnswer s = .ok a ↔ a = s.spReply ∧ spLegal s.cfg s.sp = true ∧ s.DecContract a := by
  simp only [decAnswer, ho]
  constructor
  · intro h
    obtain ⟨rfl, hl, hlegal, hkeeps⟩ := otherAnswer_ok h
    exact ⟨rfl, hl, decContract_iff.mpr ⟨hlegal, hkeeps⟩⟩
  · rintro ⟨rfl, hl, hc⟩
    obtain ⟨hlegal, hkeeps⟩ := decContract_iff.mp hc
    simp [otherAnswer, hl, hlegal, hkeeps]

/-- Another processor's increment outside its range is out of contract (R98 (b), (d), U2). -/
theorem incAnswer_other_of_not_inRange (ho : s.cfg.processor = .other) (h : incInRange s.cfg s.spReply = false) :
    incAnswer s = .error .spIllegal := by
  simp [incAnswer, ho, otherAnswer, h]

/-- Another processor's decrement to an illegal pointer is out of contract (R99 (c), U2). -/
theorem decAnswer_other_of_illegal (ho : s.cfg.processor = .other) (h : spLegal s.cfg s.spReply.sp = false) :
    decAnswer s = .error .spIllegal := by
  simp [decAnswer, ho, otherAnswer, h]

/-- An increment within its range that breaks another clause of R98 is the fault of log 5. -/
theorem incAnswer_other_of_broken (ho : s.cfg.processor = .other) (hl : spLegal s.cfg s.sp = true)
    (hrange : incInRange s.cfg s.spReply = true) (hc : ¬s.IncContract s.spReply) :
    incAnswer s = .error .spContractBroken := by
  have hbroken : ¬incKeepsContract s.cfg s.sp s.spTrail s.spReply = true :=
    fun hkeeps => hc (incContract_iff.mpr ⟨hrange, hkeeps⟩)
  simp [incAnswer, ho, otherAnswer, hl, hrange, hbroken]

/-- A decrement to a legal pointer that breaks another clause of R99 is the fault of log 5. -/
theorem decAnswer_other_of_broken (ho : s.cfg.processor = .other) (hl : spLegal s.cfg s.sp = true)
    (hlegal : spLegal s.cfg s.spReply.sp = true) (hc : ¬s.DecContract s.spReply) :
    decAnswer s = .error .spContractBroken := by
  have hbroken : ¬decKeepsContract s.cfg s.sp s.spTrail s.spReply = true :=
    fun hkeeps => hc (decContract_iff.mpr ⟨hlegal, hkeeps⟩)
  simp [decAnswer, ho, otherAnswer, hl, hlegal, hbroken]

/-- With either processor, an increment from the record it keeps is answered within R98. -/
theorem incContract_of_incAnswer (hl : spLegal s.cfg s.sp = true) (ht : s.TrailOk) (h : incAnswer s = .ok a) :
    s.IncContract a := by
  cases hp : s.cfg.processor with
  | reference => exact incContract_of_refInc hl (ht.1 hp) (incAnswer_reference hp ▸ h)
  | other =>
    obtain ⟨-, -, hc⟩ := (incAnswer_other_iff hp).mp h
    exact hc

/-- With either processor, a decrement from the record it keeps is answered within R99. -/
theorem decContract_of_decAnswer (ht : s.TrailOk) (h : decAnswer s = .ok a) : s.DecContract a := by
  cases hp : s.cfg.processor with
  | reference => exact decContract_of_refDec (ht.1 hp) (decAnswer_reference hp ▸ h)
  | other =>
    obtain ⟨-, -, hc⟩ := (decAnswer_other_iff hp).mp h
    exact hc

/-! ## Every step keeps the record -/

theorem trailOk_of_reference (hp : s.ReferenceProcessor)
    (h : s.spTrail = referenceTrail s.cfg (spDepth s.cfg s.sp)) : s.TrailOk :=
  ⟨fun _ => h, fun ho => absurd (hp.symm.trans ho) nofun⟩

theorem trailOk_of_other (ho : s.cfg.processor = .other) (hchain : trailChain s.cfg s.sp s.spTrail = true)
    (hcount : trailBase s.sp s.spTrail = s.cfg.spEmpty → s.spTrail.length ≤ s.cfg.capacity) : s.TrailOk :=
  ⟨fun hp => absurd (hp.symm.trans ho) nofun, fun _ => ⟨hchain, hcount⟩⟩

/-- An increment that does not overflow adds the pointer before it to the record; R98 (c) keeps the count. -/
theorem trailOk_incremented (hl : spLegal s.cfg s.sp = true) (ht : s.TrailOk) (h : incAnswer s = .ok a) :
    (s.incremented a).TrailOk := by
  cases hp : s.cfg.processor with
  | reference =>
    refine trailOk_of_reference hp ?_
    have htrail := ht.1 hp
    obtain ⟨hbit, hslot, htop, -⟩ | ⟨hbit, hsp, -⟩ := refInc_ok (incAnswer_reference hp ▸ h)
    · simp [hbit, spDepth_of_lt hslot, htop, referenceTrail, pointerAt_spDepth hl, htrail]
    · simpa [hbit, hsp] using htrail
  | other =>
    obtain ⟨hchain, hcount⟩ := ht.2 hp
    obtain ⟨-, -, hslot, hcount', -, hkept⟩ := (incAnswer_other_iff hp).mp h
    cases hbit : a.bit with
    | false =>
      refine trailOk_of_other hp ?_ ?_
      · simp [hbit, trailChain, hslot hbit, hchain]
      · simpa [hbit, trailBase_cons] using hcount'
    | true => exact trailOk_of_other hp (by simpa [hbit, hkept hbit]) (by simpa [hbit, hkept hbit])

/-- A decrement takes the newest increment off the record and goes back to the pointer before it. -/
theorem trailOk_decremented (ht : s.TrailOk) (h : decAnswer s = .ok a) : (s.decremented a).TrailOk := by
  cases hp : s.cfg.processor with
  | reference =>
    refine trailOk_of_reference hp ?_
    simp [ht.1 hp, tail_referenceTrail, spDepth_of_refDec (decAnswer_reference hp ▸ h)]
  | other =>
    obtain ⟨hchain, hcount⟩ := ht.2 hp
    obtain ⟨-, -, -, hlegal, hundo⟩ := (decAnswer_other_iff hp).mp h
    cases htrail : s.spTrail with
    | nil => exact trailOk_of_other hp (by simpa [htrail, trailChain]) (by simp [htrail])
    | cons earlier rest =>
      obtain ⟨-, hsp⟩ := hundo earlier rest htrail
      rw [htrail, trailBase_cons, List.length_cons] at hcount
      simp only [htrail, trailChain, Bool.and_eq_true] at hchain
      obtain ⟨-, hrest⟩ := hchain
      refine trailOk_of_other hp ?_ ?_
      · simpa [htrail, hsp] using hrest
      · simpa [htrail, hsp] using fun hbase => Nat.le_of_succ_le (hcount hbase)

/-- Every effect keeps the record: only the two pointer requests touch it or the pointer. -/
theorem Effect.trailOk {u : State} (h : Effect s u) (hl : spLegal s.cfg s.sp = true) (ht : s.TrailOk) : u.TrailOk := by
  cases h with
  | unchanged | wrote | signalled | loaded => exact ht
  | overflowed hinc | pushed _ hinc =>
    obtain ⟨a, hanswer, -, rfl⟩ := incAnswer_of_spInc hinc
    exact (trailOk_incremented hl ht hanswer :)
  | popped hread hdec =>
    obtain ⟨hcfg, hsp, htrail, -⟩ := popRead_keeps_pointer hread
    obtain ⟨a, hanswer, -, rfl⟩ := decAnswer_of_spDec hdec
    exact trailOk_decremented (by rwa [State.TrailOk, hcfg, hsp, htrail]) hanswer

end

/-- Settles O50: every effect keeps the record, and presenting and responding touch nothing it speaks of. -/
theorem stepKeepsTheTrail : Obligations.StepKeepsTheTrail := fun _ _ hs ht h =>
  step_of_effect (R := fun s t => s.inv = true → s.TrailOk → t.TrailOk) (fun _ _ => id) (fun _ _ _ _ => id)
    (fun _ _ _ _ _ _ => id) (fun _ _ heff hinv => heff.trailOk (inv_iff.mp hinv).2.2) h hs ht

end Sys2Proof.Machine
end

