-- ==== Sys2Proof/Proofs/CallStackOps.lean ====
section
/-! The two call-stack operations (`42_call_stack.md` section 3): everything a `PUSH` and a `POP` do on the processor's
answer, whichever processor it is, and where they fault. -/

namespace Sys2Proof.Machine

/-! ## What the operations do -/

/-- What no call-stack operation changes (R107 (4), R110). -/
structure OutsideStackKept (s t : State) : Prop where
  mem : t.mem = s.mem
  trapLog : t.trapLog = s.trapLog
  environment : SameEnvironment s t
  phase : t.phase = s.phase

/-- What a `PUSH` does that does not overflow and leaves the pointer at `v` (R102). -/
structure Pushed (address v : Addr) (s t : State) : Prop where
  kept : OutsideStackKept s t
  answered : Answered s t 0x60000000#32 []
  sp : t.sp = v
  trail : t.spTrail = s.sp :: s.spTrail
  top : Cells.get t.slots v.toNat = some address
  otherSlots : SameSlotsBut s t v.toNat
  retAddr : t.retAddr = s.retAddr
  called : Called s t [.incrementStackPointer false, .currentStackPointer v]

/-- What a `PUSH` does that overflows (R102). -/
structure Overflowed (s t : State) : Prop where
  kept : OutsideStackKept s t
  answered : Answered s t 0x61000000#32 []
  sp : t.sp = s.sp
  trail : t.spTrail = s.spTrail
  slots : t.slots = s.slots
  retAddr : t.retAddr = s.retAddr
  called : Called s t [.incrementStackPointer true]

/-- What a `POP` does that returns the address `r`, its decrement being answered by `a` (R104). -/
structure Popped (r : Addr) (a : SpAnswer) (s t : State) : Prop where
  kept : OutsideStackKept s t
  answered : Answered s t (BitVec.ofNat 32 (0x70000000 + a.bit.toNat * 2 ^ 24 + r.toNat)) []
  sp : t.sp = a.sp
  trail : t.spTrail = s.spTrail.tail
  slots : t.slots = s.slots
  retAddr : t.retAddr = r
  called : Called s t [.currentStackPointer s.sp, .decrementStackPointer a.bit]

theorem Popped.answered_of_bit {r : Addr} {a : SpAnswer} {s t : State} (h : Popped r a s t) {n : Nat}
    (hn : 0x70000000 + a.bit.toNat * 2 ^ 24 = n) : Answered s t (BitVec.ofNat 32 (n + r.toNat)) [] := by
  subst hn
  exact h.answered

/-! ## PUSH -/

section
variable {address : Addr} {s t : State} {a : SpAnswer} {f : Fault}

/-- An overflowing increment keeps the pointer (R98 (e), R100). -/
theorem sp_kept_of_overflow (h : incAnswer s = .ok a) (hbit : a.bit = true) : a.sp = s.sp := by
  cases hp : s.cfg.processor with
  | reference =>
    obtain ⟨hfalse, -⟩ | ⟨-, hsp, -⟩ := refInc_ok (incAnswer_reference hp ▸ h)
    · exact nomatch hfalse.symm.trans hbit
    · exact hsp
  | other =>
    obtain ⟨-, -, -, -, -, hkept⟩ := (incAnswer_other_iff hp).mp h
    exact hkept hbit

/-- An increment that does not overflow leaves a slot index (R98 (b), R100). -/
theorem slot_of_increment (h : incAnswer s = .ok a) (hbit : a.bit = false) : a.sp.toNat < s.cfg.capacity := by
  obtain ⟨b, hb, heq, hrange, -⟩ := spInc_ok (spInc_of_incAnswer h)
  have hsp : a.sp = b.sp := congrArg State.sp heq
  exact hsp ▸ (incInRange_iff.mp hrange).1 (hb.trans hbit)

/-- An admitted `PUSH` completes on the processor's answer, and writes the new top unless it overflowed (R102). -/
theorem exec_push_of_incAnswer (address : Addr) (hp : s.phase = .run) (hd : s.data = []) (h : incAnswer s = .ok a) :
    ∃ t, exec (.push address) s = .next t ∧ (a.bit = false → Pushed address a.sp s t) ∧
      (a.bit = true → Overflowed s t) := by
  refine ⟨_, exec_push_of_spInc hp hd (spInc_of_incAnswer h), fun hbit => ?_, fun hbit => ?_⟩ <;>
    rw [hbit]
  · exact ⟨⟨rfl, rfl, ⟨rfl, rfl, rfl, rfl⟩, rfl⟩, answered_respond rfl (by decide) [], rfl, by simp [hbit], by simp,
      fun j hj => by simp [hj], rfl, by simp [Called, hbit]⟩
  · exact ⟨⟨rfl, rfl, ⟨rfl, rfl, rfl, rfl⟩, rfl⟩, answered_respond rfl (by decide) [], sp_kept_of_overflow h hbit,
      by simp [hbit], rfl, rfl, by simp [Called, hbit]⟩

/-- Everything a completed `PUSH` can have done. -/
theorem exec_push_next (h : exec (.push address) s = .next t) :
    s.phase = .run ∧ s.data = [] ∧ ∃ a, incAnswer s = .ok a ∧ (a.bit = false → Pushed address a.sp s t) ∧
      (a.bit = true → Overflowed s t) := by
  obtain ⟨hp, hd, ovf, s1, hinc, -⟩ := execPush_next h
  obtain ⟨a, hanswer, -, -⟩ := incAnswer_of_spInc hinc
  obtain ⟨u, hexec, hdone⟩ := exec_push_of_incAnswer address hp hd hanswer
  cases hexec.symm.trans h
  exact ⟨hp, hd, a, hanswer, hdone⟩

theorem exec_push_of_incAnswer_error (hp : s.phase = .run) (hd : s.data = []) (h : incAnswer s = .error f) :
    exec (.push address) s = .fault f := by
  rw [exec, execPush, whenAccepted_eq hp (by simp [hd, dataLength]), spInc, h]

end

/-! ## POP -/

/-- The address a `POP` returns: the slot the pointer names, or `RET_ADDR` as it stands on the empty stack (R104 to
R106). -/
def State.PopReturns (s : State) (r : Addr) : Prop :=
  (s.sp = s.cfg.spEmpty ∧ r = s.retAddr) ∨ (s.sp.toNat < s.cfg.capacity ∧ Cells.get s.slots s.sp.toNat = some r)

section
variable {r : Addr} {s t : State} {a : SpAnswer} {f : Fault}

theorem State.PopReturns.legal (h : s.PopReturns r) : spLegal s.cfg s.sp = true :=
  spLegal_iff.mpr (h.imp And.left And.left)

/-- The read half of `POP` samples the pointer and leaves the address in `RET_ADDR`. -/
theorem popRead_of_popReturns (h : s.PopReturns r) : popRead s = .ok ((sampleSp s).setRetAddr r) := by
  obtain ⟨he, rfl⟩ | ⟨hslot, hget⟩ := h
  · exact if_pos he
  · simp [popRead, ne_spEmpty_of_lt hslot, hslot, hget]

theorem popReturns_of_popRead (h : popRead s = .ok t) : ∃ r, s.PopReturns r ∧ t = (sampleSp s).setRetAddr r := by
  obtain ⟨he, rfl⟩ | ⟨hslot, r, hget, rfl⟩ := popRead_ok h
  · exact ⟨s.retAddr, .inl ⟨he, rfl⟩, rfl⟩
  · exact ⟨r, .inr ⟨hslot, hget⟩, rfl⟩

/-- A legal pointer that is the sentinel or names a written slot has an address to return. -/
theorem exists_popReturns (hl : spLegal s.cfg s.sp = true)
    (hw : s.sp = s.cfg.spEmpty ∨ (Cells.get s.slots s.sp.toNat).isSome = true) : ∃ r, s.PopReturns r := by
  obtain ⟨t, hread⟩ := popRead_of_written hl hw
  obtain ⟨r, hr, -⟩ := popReturns_of_popRead hread
  exact ⟨r, hr⟩

theorem popRead_of_illegal (h : spLegal s.cfg s.sp = false) : popRead s = .error .spIllegal := by
  obtain ⟨hne, hout⟩ := spLegal_eq_false_iff.mp h
  rw [popRead, if_neg hne, if_neg (Nat.not_lt.mpr hout)]

/-- An admitted `POP` completes on the processor's answer (R104). -/
theorem exec_pop_of_decAnswer (hp : s.phase = .run) (hd : s.data = []) (hr : s.PopReturns r)
    (h : decAnswer s = .ok a) : ∃ t, exec .pop s = .next t ∧ Popped r a s t := by
  have hdec := spDec_of_decAnswer (s := (sampleSp s).setRetAddr r) h
  refine ⟨_, exec_pop_of_spDec hp hd (popRead_of_popReturns hr) hdec, ⟨rfl, rfl, ⟨rfl, rfl, rfl, rfl⟩, rfl⟩,
    answered_respond rfl (rspWord_eq_ofNat ?_) [], rfl, rfl, rfl, rfl, by simp [Called]⟩
  rw [valueOfWord_toNat]
  rfl

/-- Everything a completed `POP` can have done. -/
theorem exec_pop_next (h : exec .pop s = .next t) :
    s.phase = .run ∧ s.data = [] ∧ ∃ r a, s.PopReturns r ∧ decAnswer s = .ok a ∧ Popped r a s t := by
  obtain ⟨hp, hd, s1, unf, s2, hread, hdec, -⟩ := execPop_next h
  obtain ⟨r, hr, rfl⟩ := popReturns_of_popRead hread
  obtain ⟨a, hanswer, -, -⟩ := decAnswer_of_spDec hdec
  obtain ⟨u, hexec, hdone⟩ := exec_pop_of_decAnswer hp hd hr hanswer
  cases hexec.symm.trans h
  exact ⟨hp, hd, r, a, hr, hanswer, hdone⟩

theorem exec_pop_of_decAnswer_error (hp : s.phase = .run) (hd : s.data = []) (hr : s.PopReturns r)
    (h : decAnswer s = .error f) : exec .pop s = .fault f := by
  have hdec : decAnswer ((sampleSp s).setRetAddr r) = .error f := h
  rw [exec, execPop, whenAccepted_eq hp (by simp [hd, dataLength]), popRead_of_popReturns hr]
  simp only [spDec, hdec]

theorem exec_pop_of_illegal (hp : s.phase = .run) (hd : s.data = []) (h : spLegal s.cfg s.sp = false) :
    exec .pop s = .fault .spIllegal := by
  rw [exec, execPop, whenAccepted_eq hp (by simp [hd, dataLength]), popRead_of_illegal h]

end

/-! ## With the reference processor -/

/-- The run phase with the reference processor and a legal pointer: every `PUSH` completes here, and every `POP` of a
written slot. -/
structure Ready (s : State) : Prop where
  run : s.phase = .run
  noData : s.data = []
  reference : s.ReferenceProcessor
  legal : spLegal s.cfg s.sp = true

section
variable {s t : State}

/-- A completed call-stack operation leaves the machine ready for the next. -/
theorem Ready.of_kept (h : Ready s) (hk : OutsideStackKept s t) {word : ResponseWord} (ha : Answered s t word [])
    (hl : spLegal s.cfg t.sp = true) : Ready t := by
  obtain ⟨hcfg, -⟩ := hk.environment
  exact ⟨hk.phase.trans h.run, ha.2, by rw [State.ReferenceProcessor, hcfg]; exact h.reference, by rwa [hcfg]⟩

/-- Below capacity the reference processor's `PUSH` raises the depth by one (R102, R103). -/
theorem Ready.push (address : Addr) (h : Ready s) (hlt : spDepth s.cfg s.sp < s.cfg.capacity) :
    ∃ v t, refInc s.cfg s.sp = .ok ⟨false, v⟩ ∧ v.toNat = spDepth s.cfg s.sp ∧ exec (.push address) s = .next t ∧
      Pushed address v s t ∧ Ready t := by
  obtain ⟨-, v, hinc, htop⟩ | ⟨hfull, -⟩ := refInc_of_legal h.legal
  · obtain ⟨t, hexec, hpushed, -⟩ :=
      exec_push_of_incAnswer address h.run h.noData ((incAnswer_reference h.reference).trans hinc)
    have hdone := hpushed rfl
    exact ⟨v, t, hinc, htop, hexec, hdone,
      h.of_kept hdone.kept hdone.answered (spLegal_iff.mpr (.inr (by rw [hdone.sp, htop]; exact hlt)))⟩
  · exact absurd hlt hfull.not_lt

/-- At capacity the reference processor's `PUSH` overflows (R102, R103). -/
theorem Ready.push_full (address : Addr) (h : Ready s) (hfull : spDepth s.cfg s.sp = s.cfg.capacity) :
    ∃ t, exec (.push address) s = .next t ∧ Overflowed s t ∧ Ready t := by
  obtain ⟨hlt, -⟩ | ⟨-, hinc⟩ := refInc_of_legal h.legal
  · exact absurd hfull hlt.ne
  · obtain ⟨t, hexec, -, hoverflowed⟩ :=
      exec_push_of_incAnswer address h.run h.noData ((incAnswer_reference h.reference).trans hinc)
    have hdone := hoverflowed rfl
    exact ⟨t, hexec, hdone, h.of_kept hdone.kept hdone.answered (hdone.sp ▸ h.legal)⟩

/-- The reference processor's `POP` completes where it has an address to return (R104). -/
theorem Ready.pop (h : Ready s) {r : Addr} (hr : s.PopReturns r) :
    ∃ a t, refDec s.cfg s.sp = .ok a ∧ exec .pop s = .next t ∧ Popped r a s t ∧ Ready t := by
  obtain ⟨a, hdec, hlegal⟩ := exists_refDec h.legal
  obtain ⟨t, hexec, hdone⟩ := exec_pop_of_decAnswer h.run h.noData hr ((decAnswer_reference h.reference).trans hdec)
  exact ⟨a, t, hdec, hexec, hdone, h.of_kept hdone.kept hdone.answered (hdone.sp ▸ hlegal)⟩

end

/-! ## The single operations settled -/

/-- Settles O32: the reference processor's answer is the one of its depth; any other's reply is taken, or refused by the
check it fails. -/
theorem pushWritesTheNewTop : Obligations.PushWritesTheNewTop := by
  intro address s hp hd
  refine ⟨encode_eq_ofNat (encode_toNat _), fun href hl => ?_, fun bit sp' ho hreply hl => ?_, fun hl => ?_⟩
  · have hready : Ready s := ⟨hp, hd, href, hl⟩
    obtain hlt | hfull := (spDepth_le_capacity hl).lt_or_eq
    · obtain ⟨v, t, -, htop, hexec, hpush, -⟩ := hready.push address hlt
      obtain ⟨⟨hmem, htrap, henv, hphase⟩, hans, rfl, htrail, hget, hother, hret, hcalls⟩ := hpush
      exact ⟨t, hexec, hmem, hret, htrap, henv, hphase, fun _ => ⟨hans, htop, htrail, hget, hother, hcalls⟩,
        fun hfull => absurd hfull hlt.ne⟩
    · obtain ⟨t, hexec, ⟨⟨hmem, htrap, henv, hphase⟩, hans, hsp, htrail, hslots, hret, hcalls⟩, -⟩ :=
        hready.push_full address hfull
      exact ⟨t, hexec, hmem, hret, htrap, henv, hphase, fun hlt => absurd hfull hlt.ne,
        fun _ => ⟨hans, hsp, htrail, hslots, hcalls⟩⟩
  · have taken (hc : s.IncContract ⟨bit, sp'⟩) : incAnswer s = .ok ⟨bit, sp'⟩ :=
      (incAnswer_other_iff ho).mpr ⟨hreply.symm, hl, hc⟩
    refine ⟨fun hbit hc => ?_, fun hbit hc => ?_, fun hbit hout => ?_, fun hbit hout => ?_, fun hrange hc => ?_⟩
    · obtain ⟨t, hexec, hpush, -⟩ := exec_push_of_incAnswer address hp hd (taken hc)
      obtain ⟨⟨hmem, htrap, henv, hphase⟩, hans, hsp, htrail, hget, hother, hret, hcalls⟩ := hpush hbit
      exact ⟨t, hexec, hans, hsp, htrail, hget, hother, hmem, hret, htrap, henv, hphase, hcalls⟩
    · obtain ⟨t, hexec, -, hover⟩ := exec_push_of_incAnswer address hp hd (taken hc)
      obtain ⟨⟨hmem, htrap, henv, hphase⟩, hans, hsp, htrail, hslots, hret, hcalls⟩ := hover hbit
      exact ⟨t, hexec, hans, hsp, htrail, hslots, hmem, hret, htrap, henv, hphase, hcalls⟩
    · refine exec_push_of_incAnswer_error hp hd (incAnswer_other_of_not_inRange ho ?_)
      simp [hreply, incInRange, hbit, hout]
    · refine exec_push_of_incAnswer_error hp hd (incAnswer_other_of_not_inRange ho ?_)
      simp [hreply, incInRange, hbit, hout]
    · exact exec_push_of_incAnswer_error hp hd (incAnswer_other_of_broken ho hl (hreply ▸ hrange) (hreply ▸ hc))
  · exact exec_push_of_incAnswer_error hp hd (incAnswer_of_illegal hl)

/-- Settles O34: the read half decides the address, the decrement's answer the pointer and the underflow bit. -/
theorem popReturnsTheTop : Obligations.PopReturnsTheTop := by
  intro s hp hd
  refine ⟨encode_eq_ofNat (encode_toNat _), fun href => ⟨fun address hslot hget => ?_, fun he => ?_⟩,
    fun bit sp' ho hreply => ?_, exec_pop_of_illegal hp hd⟩
  · have hr : s.PopReturns address := .inr ⟨hslot, hget⟩
    obtain ⟨a, t, hdec, hexec, hpop, -⟩ := Ready.pop ⟨hp, hd, href, hr.legal⟩ hr
    obtain ⟨-, he, -⟩ | ⟨hbit, -, hlegal, hdepth⟩ := refDec_ok hdec
    · exact absurd he (ne_spEmpty_of_lt hslot)
    · have hans := hpop.answered_of_bit (n := 0x70000000) (by simp [hbit])
      obtain ⟨⟨hmem, htrap, henv, hphase⟩, -, hsp, htrail, hslots, hret, hcalls⟩ := hpop
      rw [hbit] at hcalls
      exact ⟨t, hexec, hans, hret, hslots, hmem, htrap, henv, hphase, by rw [hsp, hdepth, spDepth_of_lt hslot],
        hsp ▸ hlegal, htrail, hcalls⟩
  · have hr : s.PopReturns s.retAddr := .inl ⟨he, rfl⟩
    obtain ⟨a, t, hdec, hexec, hpop, -⟩ := Ready.pop ⟨hp, hd, href, hr.legal⟩ hr
    cases (refDec_of_empty he).symm.trans hdec
    have hans := hpop.answered_of_bit (n := 0x71000000) (by simp)
    obtain ⟨⟨hmem, htrap, henv, hphase⟩, -, hsp, htrail, hslots, hret, hcalls⟩ := hpop
    exact ⟨t, hexec, hans, hslots, hsp, hret, hmem, htrap, henv, hphase, htrail, hcalls⟩
  · have taken (hl : spLegal s.cfg s.sp = true) (hc : s.DecContract ⟨bit, sp'⟩) : decAnswer s = .ok ⟨bit, sp'⟩ :=
      (decAnswer_other_iff ho).mpr ⟨hreply.symm, hl, hc⟩
    have readable (hread : s.sp = s.cfg.spEmpty ∨
        (s.sp.toNat < s.cfg.capacity ∧ (Cells.get s.slots s.sp.toNat).isSome = true)) : ∃ r, s.PopReturns r :=
      exists_popReturns (spLegal_iff.mpr (hread.imp_right And.left)) (hread.imp_right And.right)
    refine ⟨fun address hc hslot hget => ?_, fun hc he => ?_, fun hout hread => ?_, fun hlegal hc hread => ?_⟩
    · have hr : s.PopReturns address := .inr ⟨hslot, hget⟩
      obtain ⟨t, hexec, hpop⟩ := exec_pop_of_decAnswer hp hd hr (taken hr.legal hc)
      obtain ⟨⟨hmem, htrap, henv, hphase⟩, hans, hsp, htrail, hslots, hret, hcalls⟩ := hpop
      exact ⟨t, hexec, hans, hret, hsp, hslots, hmem, htrap, henv, hphase, htrail, hcalls⟩
    · have hr : s.PopReturns s.retAddr := .inl ⟨he, rfl⟩
      obtain ⟨t, hexec, hpop⟩ := exec_pop_of_decAnswer hp hd hr (taken hr.legal hc)
      obtain rfl : bit = true := hc.1 he
      have hans := hpop.answered_of_bit (n := 0x71000000) (by simp)
      obtain ⟨⟨hmem, htrap, henv, hphase⟩, -, hsp, htrail, hslots, hret, hcalls⟩ := hpop
      exact ⟨t, hexec, hans, hret, hsp, hslots, hmem, htrap, henv, hphase, htrail, hcalls⟩
    · obtain ⟨r, hr⟩ := readable hread
      exact exec_pop_of_decAnswer_error hp hd hr (decAnswer_other_of_illegal ho (hreply ▸ hout))
    · obtain ⟨r, hr⟩ := readable hread
      exact exec_pop_of_decAnswer_error hp hd hr
        (decAnswer_other_of_broken ho hr.legal (hreply ▸ hlegal) (hreply ▸ hc))

/-- From the empty stack at most `CAPACITY` increments stand (log 18). -/
theorem length_spTrail_le_capacity {s : State} (hl : spLegal s.cfg s.sp = true) (ht : s.TrailOk)
    (hbase : trailBase s.sp s.spTrail = s.cfg.spEmpty) : s.spTrail.length ≤ s.cfg.capacity := by
  cases hp : s.cfg.processor with
  | reference =>
    rw [ht.1 hp, length_referenceTrail]
    exact spDepth_le_capacity hl
  | other =>
    obtain ⟨-, hcount⟩ := ht.2 hp
    exact hcount hbase

/-- Settles O30: the answer a completed operation acted on keeps the contract, and the operation shows it. -/
theorem everyProcessorKeepsTheContract : Obligations.EveryProcessorKeepsTheContract := by
  intro s t hinv ht
  obtain ⟨-, -, hl⟩ := inv_iff.mp hinv
  refine ⟨fun address h => ?_, fun h => ?_⟩
  · obtain ⟨-, -, a, hanswer, hpushed, hoverflowed⟩ := exec_push_next h
    obtain ⟨hslot, hcount, hlegal, -⟩ := incContract_of_incAnswer hl ht hanswer
    have hcount' (hbase : trailBase s.sp s.spTrail = s.cfg.spEmpty) :
        a.bit = true ↔ s.spTrail.length = s.cfg.capacity :=
      (hcount hbase).trans (length_spTrail_le_capacity hl ht hbase).ge_iff_eq
    refine ⟨a.bit, ?_⟩
    cases hbit : a.bit with
    | false =>
      obtain ⟨hkept, hans, hsp, htrail, -⟩ := hpushed hbit
      obtain ⟨hcfg, -⟩ := hkept.environment
      exact ⟨hans, by rwa [hcfg, hsp], fun _ => ⟨hsp ▸ hslot hbit, htrail⟩, nofun, hbit ▸ hcount'⟩
    | true =>
      obtain ⟨hkept, hans, hsp, htrail, -⟩ := hoverflowed hbit
      obtain ⟨hcfg, -⟩ := hkept.environment
      exact ⟨hans, by rwa [hcfg, hsp], nofun, fun _ => ⟨hsp, htrail⟩, hbit ▸ hcount'⟩
  · obtain ⟨-, -, r, a, -, hanswer, hpop⟩ := exec_pop_next h
    obtain ⟨hempty, hlegal, hundo⟩ := decContract_of_decAnswer ht hanswer
    obtain ⟨hkept, hans, hsp, htrail, -, rfl, -⟩ := hpop
    obtain ⟨hcfg, -⟩ := hkept.environment
    exact ⟨a.bit, hans, by rwa [hcfg, hsp], htrail, hempty, by rwa [hsp]⟩

/-! ## The two spaces -/

theorem mem_of_exec_push {address : Addr} {s t : State} (h : exec (.push address) s = .next t) : t.mem = s.mem := by
  obtain ⟨-, -, a, -, hpushed, hoverflowed⟩ := exec_push_next h
  cases hbit : a.bit with
  | false => exact (hpushed hbit).kept.mem
  | true => exact (hoverflowed hbit).kept.mem

theorem mem_of_exec_pop {s t : State} (h : exec .pop s = .next t) : t.mem = s.mem := by
  obtain ⟨-, -, r, a, -, -, hpop⟩ := exec_pop_next h
  exact hpop.kept.mem

/-- No bus operation and no load touches the call stack. -/
theorem sameCallStack_of_exec {i : Instr} {s t : State} (h : exec i s = .next t)
    (hpush : ∀ address, i ≠ .push address) (hpop : i ≠ .pop) : SameCallStack s t := by
  cases i with
  | rdblk src len =>
    obtain ⟨-, -, _, _, _, rfl⟩ := execRdblk_next h
    exact ⟨rfl, rfl, rfl, rfl⟩
  | wrblk dst len =>
    obtain ⟨-, -, ⟨-, rfl⟩ | ⟨-, rfl⟩⟩ := execWrblk_next h <;> exact ⟨rfl, rfl, rfl, rfl⟩
  | cpblk src dst len =>
    obtain ⟨-, -, ⟨-, -, rfl⟩ | rfl⟩ := execCpblk_next h <;> exact ⟨rfl, rfl, rfl, rfl⟩
  | clblk dst len =>
    obtain ⟨-, -, ⟨-, rfl⟩ | rfl⟩ := execClblk_next h <;> exact ⟨rfl, rfl, rfl, rfl⟩
  | fetch pc =>
    obtain ⟨-, -, -, rfl⟩ := execFetch_next h
    exact ⟨rfl, rfl, rfl, rfl⟩
  | push address => exact absurd rfl (hpush address)
  | pop => exact absurd rfl hpop
  | load unreadable len =>
    obtain ⟨-, ⟨-, -, -, rfl⟩ | ⟨-, -, rfl⟩⟩ := execLoad_next h <;> exact ⟨rfl, rfl, rfl, rfl⟩

/-- Settles O41: `PUSH` and `POP` keep what lies outside the stack, every other operation keeps the stack. -/
theorem theTwoSpacesAreSeparate : Obligations.TheTwoSpacesAreSeparate := by
  intro i s t h
  refine ⟨?_, sameCallStack_of_exec h⟩
  rintro (⟨address, rfl⟩ | rfl)
  · exact mem_of_exec_push h
  · exact mem_of_exec_pop h

end Sys2Proof.Machine
end

