-- ==== Sys2Proof/Proofs/CallStackLaws.lean ====
section
/-! The laws of the call stack over more than one operation (`42_call_stack.md` R103, R107): a push and its pop, runs of
pushes and pops, and the depth. -/

namespace Sys2Proof.Machine

/-! ## A push and its pop -/

section
variable {address v : Addr} {s t u : State} {reply : SpAnswer}

/-- After a push that does not overflow, a pop returns the address pushed (R107 (1)). -/
theorem Pushed.popReturns (h : Pushed address v s t) (hslot : v.toNat < s.cfg.capacity) : t.PopReturns address := by
  obtain ⟨hcfg, -⟩ := h.kept.environment
  exact .inr ⟨by rwa [hcfg, h.sp], by rw [h.sp]; exact h.top⟩

/-- A pop that goes back to the pointer before the push leaves the stack as it was but for the slot pushed to. -/
theorem Pushed.restored (h : Pushed address v s t)
    (hpop : Popped address ⟨false, s.sp⟩ ({ t with spReply := reply } : State) u) :
    Answered t u (BitVec.ofNat 32 (0x70000000 + address.toNat)) [] ∧ u.sp = s.sp ∧ u.spTrail = s.spTrail ∧
      SameSlotsBut s u t.sp.toNat := by
  refine ⟨hpop.answered_of_bit (n := 0x70000000) (by simp), hpop.sp, ?_, fun j hj => ?_⟩
  · rw [hpop.trail, h.trail, List.tail_cons]
  · rw [hpop.slots]
    exact h.otherSlots j (h.sp ▸ hj)

/-- With a processor other than the reference, the decrement after a push that did not overflow has one answer: the
increment that stands is undone (R99 (d)). -/
theorem Pushed.decAnswer_iff {a : SpAnswer} (h : Pushed address v s t) (ho : s.cfg.processor = .other)
    (hl : spLegal s.cfg s.sp = true) (hslot : v.toNat < s.cfg.capacity) :
    decAnswer { t with spReply := reply } = .ok a ↔ a = reply ∧ reply = ⟨false, s.sp⟩ := by
  obtain ⟨hcfg, -⟩ := h.kept.environment
  rw [decAnswer_other_iff (s := { t with spReply := reply }) (hcfg ▸ ho)]
  constructor
  · rintro ⟨rfl, -, -, -, hundo⟩
    obtain ⟨hbit, hsp⟩ := hundo s.sp s.spTrail h.trail
    exact ⟨rfl, by rw [← hbit, ← hsp]⟩
  · rintro ⟨rfl, rfl⟩
    refine ⟨rfl, (h.popReturns hslot).legal, fun he => ?_, by rwa [hcfg], fun earlier rest hcons => ?_⟩
    · rw [hcfg, h.sp] at he
      exact absurd he (ne_spEmpty_of_lt hslot)
    · cases h.trail.symm.trans hcons
      exact ⟨rfl, rfl⟩

end

/-- Settles O36: the reference decrement undoes the reference increment. -/
theorem pushThenPopRestores : Obligations.PushThenPopRestores := by
  intro address s hp hd href hl hlt
  obtain ⟨v, t, hinc, htop, hpush, hpushed, hready⟩ := Ready.push address ⟨hp, hd, href, hl⟩ hlt
  obtain ⟨hcfg, -⟩ := hpushed.kept.environment
  obtain ⟨a, u, hdec, hpop, hpopped, -⟩ := hready.pop (hpushed.popReturns (htop ▸ hlt))
  rw [hcfg, hpushed.sp, refDec_of_refInc hl hinc] at hdec
  cases hdec
  obtain ⟨hans, hsp, -, hslots⟩ := hpushed.restored (reply := t.spReply) hpopped
  exact ⟨t, u, hpush, hpop, hans, hsp, hslots⟩

/-- Settles O38: the push left its increment standing, and the pop completes on the answer that undoes it only. -/
theorem popUndoesPushForAnyProcessor : Obligations.PopUndoesPushForAnyProcessor := by
  intro address s t ho hpush hbit
  obtain ⟨hp, -, a, hanswer, hpushed, -⟩ := exec_push_next hpush
  obtain ⟨rfl, hl, -⟩ := (incAnswer_other_iff ho).mp hanswer
  have hslot := slot_of_increment hanswer hbit
  have hdone := hpushed hbit
  refine ⟨?_, fun down u hpop => ?_⟩
  · obtain ⟨u, hpop, hpopped⟩ := exec_pop_of_decAnswer (s := { t with spReply := ⟨false, s.sp⟩ })
      (hdone.kept.phase.trans hp) hdone.answered.2 (hdone.popReturns hslot)
      ((hdone.decAnswer_iff ho hl hslot).mpr ⟨rfl, rfl⟩)
    exact ⟨u, hpop, hdone.restored hpopped⟩
  · obtain ⟨-, -, r, b, -, hdec, -⟩ := exec_pop_next hpop
    obtain ⟨-, hdown⟩ := (hdone.decAnswer_iff ho hl hslot).mp hdec
    exact hdown

/-! ## The stack as a list -/

/-- The slots below the pointer hold the addresses `xs`, the newest last. -/
structure Holds (s : State) (xs : List Addr) : Prop extends Ready s where
  depth : spDepth s.cfg s.sp = xs.length
  slots : ∀ i, i < xs.length → Cells.get s.slots i = xs[i]?

theorem holds_nil {s : State} (hp : s.phase = .run) (hd : s.data = []) (href : s.ReferenceProcessor)
    (he : s.sp = s.cfg.spEmpty) : Holds s [] :=
  ⟨⟨hp, hd, href, spLegal_iff.mpr (.inl he)⟩, by rw [he, spDepth_spEmpty, List.length_nil], nofun⟩

theorem sp_of_holds_nil {s : State} (h : Holds s []) : s.sp = s.cfg.spEmpty := by
  rw [← pointerAt_spDepth h.legal, h.depth]
  rfl

section
variable {s : State} {xs : List Addr}

/-- A push below capacity puts its address on top. -/
theorem Holds.push (address : Addr) (h : Holds s xs) (hlt : xs.length < s.cfg.capacity) :
    ∃ t, exec (.push address) s = .next t ∧ Holds t (xs ++ [address]) ∧ t.cfg = s.cfg ∧
      t.responses = s.responses ++ [{ word := 0x60000000#32, bytes := [] }] := by
  obtain ⟨v, t, -, htop, hexec, hpushed, hready⟩ := h.toReady.push address (h.depth ▸ hlt)
  obtain ⟨hcfg, -⟩ := hpushed.kept.environment
  obtain ⟨hans, -⟩ := hpushed.answered
  rw [h.depth] at htop
  refine ⟨t, hexec, ⟨hready, ?_, fun i hi => ?_⟩, hcfg, hans⟩
  · rw [hcfg, hpushed.sp, spDepth_of_lt (htop ▸ hlt), htop, List.length_append, List.length_singleton]
  · rw [List.length_append, List.length_singleton] at hi
    by_cases hlast : i = xs.length
    · rw [hlast, List.getElem?_concat_length, ← htop, hpushed.top]
    · rw [hpushed.otherSlots i (htop ▸ hlast), h.slots i (by omega), List.getElem?_append_left (by omega)]

/-- A pop takes the address on top off and returns it. -/
theorem Holds.pop {address : Addr} (h : Holds s (xs ++ [address])) :
    ∃ t, exec .pop s = .next t ∧ Holds t xs ∧ t.cfg = s.cfg ∧ t.retAddr = address ∧
      t.responses = s.responses ++ [{ word := BitVec.ofNat 32 (0x70000000 + address.toNat), bytes := [] }] := by
  have hdepth := h.depth
  rw [List.length_append, List.length_singleton] at hdepth
  obtain he | hslot := spLegal_iff.mp h.legal
  · rw [he, spDepth_spEmpty] at hdepth
    omega
  · have htop : s.sp.toNat = xs.length := by
      rw [spDepth_of_lt hslot] at hdepth
      omega
    have hget : Cells.get s.slots s.sp.toNat = some address := by
      rw [htop, h.slots xs.length (by simp), List.getElem?_concat_length]
    obtain ⟨a, t, hdec, hexec, hpopped, hready⟩ := h.toReady.pop (.inr ⟨hslot, hget⟩)
    obtain ⟨hcfg, -⟩ := hpopped.kept.environment
    obtain ⟨-, he, -⟩ | ⟨hbit, -, -, hbelow⟩ := refDec_ok hdec
    · exact absurd he (ne_spEmpty_of_lt hslot)
    · obtain ⟨hans, -⟩ := hpopped.answered_of_bit (n := 0x70000000) (by simp [hbit])
      refine ⟨t, hexec, ⟨hready, ?_, fun i hi => ?_⟩, hcfg, hpopped.retAddr, hans⟩
      · rw [hcfg, hpopped.sp, hbelow, htop]
      · rw [hpopped.slots, h.slots i (by simp; omega), List.getElem?_append_left hi]

/-- Pushes within capacity complete, and put their addresses on top in order (R103). -/
theorem Holds.pushes (addresses : List Addr) (h : Holds s xs) (hfit : xs.length + addresses.length ≤ s.cfg.capacity) :
    ∃ t, execAll (addresses.map .push) s = .next t ∧ Holds t (xs ++ addresses) ∧ t.cfg = s.cfg ∧
      t.responses = s.responses ++ List.replicate addresses.length { word := 0x60000000#32, bytes := [] } := by
  induction addresses generalizing s xs with
  | nil => exact ⟨s, rfl, by rwa [List.append_nil], rfl, (List.append_nil _).symm⟩
  | cons address rest ih =>
    rw [List.length_cons] at hfit
    obtain ⟨t, hexec, ht, hcfg, hans⟩ := h.push address (by omega)
    obtain ⟨u, hall, hu, hcfg', hans'⟩ := ih ht (by rw [hcfg, List.length_append, List.length_singleton]; omega)
    refine ⟨u, ?_, ?_, hcfg'.trans hcfg, ?_⟩
    · rw [List.map_cons, execAll, hexec, ← hall]
    · rwa [List.append_assoc, List.singleton_append] at hu
    · rw [hans', hans, List.append_assoc, List.length_cons, List.replicate_succ, List.singleton_append]

/-- As many pops as addresses stand complete, and return them from the top down (R107 (2)). -/
theorem Holds.pops (ys : List Addr) (h : Holds s ys.reverse) :
    ∃ t, execAll (List.replicate ys.length .pop) s = .next t ∧ Holds t [] ∧ t.cfg = s.cfg ∧
      t.retAddr = ys.getLast?.getD s.retAddr ∧
      t.responses = s.responses ++ ys.map
        (fun a => { word := BitVec.ofNat 32 (0x70000000 + a.toNat), bytes := [] }) := by
  induction ys generalizing s with
  | nil => exact ⟨s, rfl, h, rfl, rfl, (List.append_nil _).symm⟩
  | cons y ys ih =>
    rw [List.reverse_cons] at h
    obtain ⟨t, hexec, ht, hcfg, hret, hans⟩ := h.pop
    obtain ⟨u, hall, hu, hcfg', hret', hans'⟩ := ih ht
    refine ⟨u, ?_, hu, hcfg'.trans hcfg, ?_, ?_⟩
    · rw [List.length_cons, List.replicate_succ, execAll, hexec, ← hall]
    · rw [hret', hret, List.getLast?_cons, Option.getD_some]
    · rw [hans', hans, List.append_assoc, List.map_cons, List.singleton_append]

end

/-- Settles O33: the pushes fill the stack in order, and on the full stack a push overflows. -/
theorem pushingToCapacityNeverOverflows : Obligations.PushingToCapacityNeverOverflows := by
  intro s addresses extra hp hd href he hlen
  obtain ⟨t, hall, ht, hcfg, hans⟩ := (holds_nil hp hd href he).pushes addresses (by simp [hlen])
  rw [List.nil_append] at ht
  obtain ⟨u, hexec, hover, -⟩ := ht.toReady.push_full extra (by rw [ht.depth, hlen, hcfg])
  exact ⟨t, u, hall, hlen ▸ hans, fun i hi => ht.slots i (hlen ▸ hi), hexec, hover.answered, hover.slots, hover.sp⟩

/-- Settles O39: the pops take the pushed list off from its end, and the last address returned stays in `RET_ADDR`. -/
theorem popsReturnPushesInReverse : Obligations.PopsReturnPushesInReverse := by
  intro s first more hp hd href he hlen
  obtain ⟨t, hpushes, ht, hcfg, -⟩ := (holds_nil hp hd href he).pushes (first :: more) (by simpa using hlen)
  obtain ⟨u, hpops, hu, hcfg', hret, hans⟩ := Holds.pops (first :: more).reverse (by rwa [List.reverse_reverse])
  have hempty := sp_of_holds_nil hu
  obtain ⟨a, v, hdec, hpop, hpopped, -⟩ := hu.toReady.pop (.inl ⟨hempty, rfl⟩)
  cases (refDec_of_empty hempty).symm.trans hdec
  rw [List.getLast?_reverse, List.head?_cons, Option.getD_some] at hret
  rw [List.length_reverse] at hpops
  refine ⟨t, u, v, hpushes, hpops, hans, by rw [hempty, hcfg', hcfg], hpop, ?_⟩
  exact hret ▸ hpopped.answered_of_bit (n := 0x71000000) (by simp)

/-! ## Runs of pushes with any processor -/

/-- From any point of a run that began at the empty stack, pushes report no overflow until `CAPACITY` increments stand,
and overflow from then on (R98 (c); log 18). -/
theorem responses_of_pushAll {s t : State} {pushes : List (Addr × SpAnswer)} (ho : s.cfg.processor = .other)
    (hbase : trailBase s.sp s.spTrail = s.cfg.spEmpty) (h : pushAll pushes s = .next t) :
    t.responses = s.responses ++
      List.replicate (min pushes.length (s.cfg.capacity - s.spTrail.length)) { word := 0x60000000#32, bytes := [] } ++
      List.replicate (pushes.length - (s.cfg.capacity - s.spTrail.length)) { word := 0x61000000#32, bytes := [] } := by
  induction pushes generalizing s with
  | nil =>
    cases h
    simp
  | cons push rest ih =>
    obtain ⟨address, reply⟩ := push
    unfold pushAll at h
    split at h
    · rename_i u hpush
      obtain ⟨-, -, a, hanswer, hpushed, hoverflowed⟩ := exec_push_next hpush
      obtain ⟨-, -, -, hcount, -⟩ := (incAnswer_other_iff (s := { s with spReply := reply }) ho).mp hanswer
      have hfull : a.bit = true ↔ s.cfg.capacity ≤ s.spTrail.length := hcount hbase
      cases hbit : a.bit with
      | false =>
        obtain ⟨⟨-, -, ⟨hcfg, -⟩, -⟩, ⟨hans, -⟩, hsp, htrail, -⟩ := hpushed hbit
        have hroom : ¬s.cfg.capacity ≤ s.spTrail.length := by simpa [hbit] using hfull
        obtain ⟨free, hfree⟩ : ∃ free, s.cfg.capacity - s.spTrail.length = free + 1 :=
          Nat.exists_eq_add_one.mpr (by omega)
        have hfree' : s.cfg.capacity - (s.spTrail.length + 1) = free := by omega
        rw [ih (hcfg ▸ ho) (by rw [htrail, trailBase_cons, hcfg]; exact hbase) h, hans, htrail, hcfg]
        simp [hfree, hfree', Nat.add_min_add_right, List.replicate_succ]
      | true =>
        obtain ⟨⟨-, -, ⟨hcfg, -⟩, -⟩, ⟨hans, -⟩, hsp, htrail, -⟩ := hoverflowed hbit
        have hnone : s.cfg.capacity - s.spTrail.length = 0 := Nat.sub_eq_zero_of_le (hfull.mp hbit)
        rw [ih (hcfg ▸ ho) (by rw [hsp, htrail, hcfg]; exact hbase) h, hans, htrail, hcfg]
        simp [hnone, List.replicate_succ]
    · exact nomatch h
    · exact nomatch h

/-- Settles O37: on the empty stack no increment stands, and all `CAPACITY` of them fit. -/
theorem anyProcessorOverflowsAtCapacity : Obligations.AnyProcessorOverflowsAtCapacity := by
  intro s t pushes ho he htrail h
  have hbase : trailBase s.sp s.spTrail = s.cfg.spEmpty := by rw [htrail, ← he]; rfl
  simpa [htrail] using responses_of_pushAll ho hbase h

/-! ## The depth -/

theorem cfg_of_exec {i : Instr} {s t : State} (h : exec i s = .next t) : t.cfg = s.cfg := by
  obtain ⟨u, _, _, _, _, heff, -, rfl⟩ := exec_effect h
  obtain ⟨hcfg, -⟩ := heff.logsGrow
  exact hcfg

/-- Settles O40: the reference requests move the depth by one, and the other operations leave the pointer. -/
theorem depthMovesByOne : Obligations.DepthMovesByOne := by
  refine ⟨fun address s hp hd href hl hs => ?_, fun i s t hpush hpop h => ?_⟩
  · have hready : Ready s := ⟨hp, hd, href, hl⟩
    refine ⟨spDepth_le_capacity hl, ?_, ?_⟩
    · by_cases hlt : spDepth s.cfg s.sp < s.cfg.capacity
      · obtain ⟨v, t, -, htop, hexec, hpushed, -⟩ := hready.push address hlt
        exact ⟨t, hexec, by rw [cfg_of_exec hexec, hpushed.sp, spDepth_of_lt (htop ▸ hlt), htop, if_pos hlt]⟩
      · have hfull := (spDepth_le_capacity hl).antisymm (Nat.not_lt.mp hlt)
        obtain ⟨t, hexec, hover, -⟩ := hready.push_full address hfull
        exact ⟨t, hexec, by rw [cfg_of_exec hexec, hover.sp, if_neg hlt, hfull]⟩
    · obtain ⟨r, hr⟩ := exists_popReturns hl (top_written_of_stackFilled hl hs)
      obtain ⟨a, t, hdec, hexec, hpopped, -⟩ := hready.pop hr
      exact ⟨t, hexec, by rw [cfg_of_exec hexec, hpopped.sp, spDepth_of_refDec hdec]⟩
  · obtain ⟨-, hsp, -⟩ := sameCallStack_of_exec h hpush hpop
    rw [cfg_of_exec h, hsp]

end Sys2Proof.Machine
end

