-- ==== Sys2Proof/Proofs/FaultSignal.lean ====
section
/-! The Fault Signal (`60_exceptions.md`): a bad write raises it once, with the `PC` of its own transaction, and nothing
else raises it. -/

namespace Sys2Proof.Machine

/-! ## The bad write -/

/-- Outside the Address Space a write raises the Fault Signal and responds, and that is all it does (R110, R115). -/
theorem exec_wrblk_of_invalid {dst : Addr} {len : Len} {s : State} (hp : s.phase = .run)
    (hd : s.data.length = len.toNat) (hout : s.cfg.size < dst.toNat + len.toNat) :
    exec (.wrblk dst len) s = .next ((raiseMemOob s).respond Opcode.wrblk false 0#24 []) :=
  (exec_wrblk hp hd).trans (if_neg (Nat.not_le.mpr hout))

/-- A completed write outside the Address Space has signalled with the `PC` it sampled. -/
theorem signalled_of_exec_wrblk {dst : Addr} {len : Len} {s t : State} (h : exec (.wrblk dst len) s = .next t)
    (hout : s.cfg.size < dst.toNat + len.toNat) : Signalled s t s.pc := by
  obtain ⟨-, -, ⟨hin, -⟩ | ⟨-, rfl⟩⟩ := execWrblk_next h
  · exact absurd hout (Nat.not_lt.mpr hin)
  · exact raiseMemOob_trapLog s

/-! ## Everything else -/

/-- No other completed operation signals: not a write inside the Address Space, not the operations that fail softly, and
not the call stack or the loader (R110). -/
theorem trapLog_of_exec {i : Instr} {s t : State} (h : exec i s = .next t)
    (hin : ∀ dst len, i = .wrblk dst len → dst.toNat + len.toNat ≤ s.cfg.size) : t.trapLog = s.trapLog := by
  cases i with
  | rdblk src len =>
    obtain ⟨-, -, _, _, _, rfl⟩ := execRdblk_next h
    rfl
  | wrblk dst len =>
    obtain ⟨-, -, ⟨-, rfl⟩ | ⟨hout, -⟩⟩ := execWrblk_next h
    · rfl
    · exact absurd hout (Nat.not_lt.mpr (hin dst len rfl))
  | cpblk src dst len => obtain ⟨-, -, ⟨-, -, rfl⟩ | rfl⟩ := execCpblk_next h <;> rfl
  | clblk dst len => obtain ⟨-, -, ⟨-, rfl⟩ | rfl⟩ := execClblk_next h <;> rfl
  | fetch pc =>
    obtain ⟨-, -, -, rfl⟩ := execFetch_next h
    rfl
  | push address =>
    obtain ⟨-, -, a, -, hpushed, hoverflowed⟩ := exec_push_next h
    cases hbit : a.bit with
    | false => exact (hpushed hbit).kept.trapLog
    | true => exact (hoverflowed hbit).kept.trapLog
  | pop =>
    obtain ⟨-, -, r, a, -, -, hpopped⟩ := exec_pop_next h
    exact hpopped.kept.trapLog
  | load unreadable len => obtain ⟨-, ⟨-, -, -, rfl⟩ | ⟨-, -, rfl⟩⟩ := execLoad_next h <;> rfl

/-! ## Settled -/

/-- Settles O42: a bad write signals, no other operation does, and the one kind of fault has the code `0x01`. -/
theorem onlyBadWritesSignal : Obligations.OnlyBadWritesSignal := by
  refine ⟨fun i s t h => ⟨?_, trapLog_of_exec h⟩, fun _ => rfl⟩
  rintro dst len rfl hout
  exact signalled_of_exec_wrblk h hout

/-- Settles O43: the state after the first bad write admits the second, which signals with the `PC` presented to it. -/
theorem secondBadWriteSignalsAgain : Obligations.SecondBadWriteSignalsAgain := by
  intro dst dst' len len' pc' data' s hp hd hd' hout hout'
  refine ⟨_, _, exec_wrblk_of_invalid hp hd hout, exec_wrblk_of_invalid ?_ ?_ ?_, ?_, ?_⟩
  · exact hp
  · exact hd'
  · exact hout'
  · simp
  · simp

/-- Settles O47: the step performs the write in the state in which its transaction is presented, with the `PC` of that
transaction. -/
theorem badWriteRecordsThePresentedPc : Obligations.BadWriteRecordsThePresentedPc := by
  intro s r rest dst len hp hpend hdecode hd hout
  have hexec := exec_wrblk_of_invalid (s := ({ s with pending := rest } : State).present r) hp hd hout
  exact ⟨_, (stepPerformsTheDecodedCommand s r rest _ hpend hdecode).trans hexec, rfl, ⟨rfl, rfl, rfl, rfl⟩, hp, rfl,
    raiseMemOob_trapLog _⟩

end Sys2Proof.Machine
end

