-- ==== Sys2Proof/Proofs/IdleStep.lean ====
section
/-! The step with no transaction pending: the block never initiates anything (R5), and a run ends with its last command
(R142). -/

namespace Sys2Proof.Machine

/-- From an empty queue no transaction is taken. -/
theorem takeRequest_of_pending_nil {s : State} (hpend : s.pending = []) : takeRequest s = none := by
  rw [takeRequest, hpend]

/-- Settles O46: with no transaction to take, the step answers the state it was given. -/
theorem stepWithNothingPendingIsIdle : Obligations.StepWithNothingPendingIsIdle := by
  intro s hpend
  rw [step, takeRequest_of_pending_nil hpend]

end Sys2Proof.Machine
end
